-- ==== Sys2Proof/Word.lean ====
section
/-! DEFINITION. The word types of CORE (spec/00_scope.md R5, R7): bytes of memory and general registers,
the 16-bit instruction word, `pc` and `I`, the 12-bit address operand, and register indices, which are
plain numbers 0 to 15 (spec/10_state.md R12: "a nibble cannot exceed 15"). -/

namespace Sys2Proof

/-- An 8-bit value: a general register, a timer, a byte of memory, the operand `kk`. -/
abbrev Byte := BitVec 8

/-- A 16-bit value: the instruction word, `pc`, `I`, a stack slot. -/
abbrev Word := BitVec 16

/-- The operand `nnn` (R61: "a 12-bit address"). -/
abbrev Addr12 := BitVec 12

/-- A general register's index, the operand `x` or `y`. -/
abbrev RegIdx := Fin 16

/-- A key's number, 0 to 15 (spec/10_state.md R27, R28). -/
abbrev KeyIdx := Fin 16

/-- The operand `n` of DRW (R61: "a 4-bit count"). -/
abbrev Count := Fin 16

end Sys2Proof
end

