-- ==== Sys2Proof/Syntax.lean ====
section
/-! DEFINITION. The 35 instructions of spec/30_encoding.md R66, one constructor per row of
spec/opcode_table.json, in the table's order. Operands are the fields of R61. -/

namespace Sys2Proof

/-- One constructor per descriptor of R66; the comment of each gives its mnemonic and encoding there. -/
inductive Instr where
  /-- `SYS nnn`, 0nnn. -/
  | sys (nnn : Addr12)
  /-- `CLS`, 00E0. -/
  | cls
  /-- `RET`, 00EE. -/
  | ret
  /-- `JP nnn`, 1nnn. -/
  | jp (nnn : Addr12)
  /-- `CALL nnn`, 2nnn. -/
  | call (nnn : Addr12)
  /-- `SE Vx, kk`, 3xkk. -/
  | seImm (x : RegIdx) (kk : Byte)
  /-- `SNE Vx, kk`, 4xkk. -/
  | sneImm (x : RegIdx) (kk : Byte)
  /-- `SE Vx, Vy`, 5xy0. -/
  | seReg (x y : RegIdx)
  /-- `SNE Vx, Vy`, 9xy0. -/
  | sneReg (x y : RegIdx)
  /-- `LD Vx, kk`, 6xkk. -/
  | ldImm (x : RegIdx) (kk : Byte)
  /-- `ADD Vx, kk`, 7xkk. -/
  | addImm (x : RegIdx) (kk : Byte)
  /-- `LD Vx, Vy`, 8xy0. -/
  | ldReg (x y : RegIdx)
  /-- `OR Vx, Vy`, 8xy1. -/
  | orReg (x y : RegIdx)
  /-- `AND Vx, Vy`, 8xy2. -/
  | andReg (x y : RegIdx)
  /-- `XOR Vx, Vy`, 8xy3. -/
  | xorReg (x y : RegIdx)
  /-- `ADD Vx, Vy`, 8xy4. -/
  | addReg (x y : RegIdx)
  /-- `SUB Vx, Vy`, 8xy5. -/
  | subReg (x y : RegIdx)
  /-- `SUBN Vx, Vy`, 8xy7. -/
  | subnReg (x y : RegIdx)
  /-- `SHR Vx`, 8xy6; the field `y` is decoded and unused (R129). -/
  | shr (x y : RegIdx)
  /-- `SHL Vx`, 8xyE; the field `y` is decoded and unused (R130). -/
  | shl (x y : RegIdx)
  /-- `LD I, nnn`, Annn. -/
  | ldI (nnn : Addr12)
  /-- `JP V0, nnn`, Bnnn. -/
  | jpV0 (nnn : Addr12)
  /-- `RND Vx, kk`, Cxkk. -/
  | rnd (x : RegIdx) (kk : Byte)
  /-- `DRW Vx, Vy, n`, Dxyn. -/
  | drw (x y : RegIdx) (n : Count)
  /-- `SKP Vx`, Ex9E. -/
  | skp (x : RegIdx)
  /-- `SKNP Vx`, ExA1. -/
  | sknp (x : RegIdx)
  /-- `LD Vx, DT`, Fx07. -/
  | ldVxDT (x : RegIdx)
  /-- `LD Vx, K`, Fx0A. -/
  | ldVxK (x : RegIdx)
  /-- `LD DT, Vx`, Fx15. -/
  | ldDTVx (x : RegIdx)
  /-- `LD ST, Vx`, Fx18. -/
  | ldSTVx (x : RegIdx)
  /-- `ADD I, Vx`, Fx1E. -/
  | addIVx (x : RegIdx)
  /-- `LD F, Vx`, Fx29. -/
  | ldFVx (x : RegIdx)
  /-- `LD B, Vx`, Fx33. -/
  | ldBVx (x : RegIdx)
  /-- `LD [I], Vx`, Fx55. -/
  | ldMemVx (x : RegIdx)
  /-- `LD Vx, [I]`, Fx65. -/
  | ldVxMem (x : RegIdx)
  deriving DecidableEq, Repr

end Sys2Proof
end

