-- ==== Sys2Proof/Decode.lean ====
section
/-! DEFINITION. The instruction table and its lookup (spec/30_encoding.md R60 to R70), decoding of bytes, and
after them the encoder. `decodeWord` is the lookup of R64 over the 35 descriptors of R66, letter for letter;
`decodeByNibbles` is the opcode map of R68, which R65 says gives the same result. The 35 patterns and masks
are the spec's own, `[from general knowledge, not in source]` (D1): assumption 4. -/

namespace Sys2Proof

/-! ### Fields of the instruction word (R61) -/

/-- `nnn = w[11:0]`. -/
def fieldNNN (w : Word) : Addr12 := w.extractLsb' 0 12

/-- `kk = w[7:0]`. -/
def fieldKK (w : Word) : Byte := w.extractLsb' 0 8

/-- `x = w[11:8]`. -/
def fieldX (w : Word) : RegIdx := (w.extractLsb' 8 4).toFin

/-- `y = w[7:4]`. -/
def fieldY (w : Word) : RegIdx := (w.extractLsb' 4 4).toFin

/-- `n = w[3:0]`. -/
def fieldN (w : Word) : Count := (w.extractLsb' 0 4).toFin

/-! ### The six operand formats (R61), as argument decoders -/

/-- Format none: "an empty argument set". -/
def fmtNone (c : Instr) (_ : Word) : Instr := c

/-- Format NNN. -/
def fmtNNN (c : Addr12 → Instr) (w : Word) : Instr := c (fieldNNN w)

/-- Format XKK. -/
def fmtXKK (c : RegIdx → Byte → Instr) (w : Word) : Instr := c (fieldX w) (fieldKK w)

/-- Format XY. -/
def fmtXY (c : RegIdx → RegIdx → Instr) (w : Word) : Instr := c (fieldX w) (fieldY w)

/-- Format X. -/
def fmtX (c : RegIdx → Instr) (w : Word) : Instr := c (fieldX w)

/-- Format XYN. -/
def fmtXYN (c : RegIdx → RegIdx → Count → Instr) (w : Word) : Instr :=
  c (fieldX w) (fieldY w) (fieldN w)

/-! ### The instruction table (R63, R66) -/

/-- "a bit pattern, a bit mask, an argument decoder, and an execution effect" (R63). The effect is named by the
constructor that `build` makes; its meaning is `Sys2Proof.Machine.exec` of it. -/
structure Descriptor where
  pattern : Word
  mask : Word
  build : Word → Instr

/-- Rows 1 to 9 of R66. -/
def tableControl : List Descriptor :=
  [⟨0x0000, 0xF000, fmtNNN .sys⟩, ⟨0x00E0, 0xFFFF, fmtNone .cls⟩, ⟨0x00EE, 0xFFFF, fmtNone .ret⟩,
   ⟨0x1000, 0xF000, fmtNNN .jp⟩, ⟨0x2000, 0xF000, fmtNNN .call⟩,
   ⟨0x3000, 0xF000, fmtXKK .seImm⟩, ⟨0x4000, 0xF000, fmtXKK .sneImm⟩,
   ⟨0x5000, 0xF00F, fmtXY .seReg⟩, ⟨0x9000, 0xF00F, fmtXY .sneReg⟩]

/-- Rows 10 to 20 of R66. -/
def tableAlu : List Descriptor :=
  [⟨0x6000, 0xF000, fmtXKK .ldImm⟩, ⟨0x7000, 0xF000, fmtXKK .addImm⟩,
   ⟨0x8000, 0xF00F, fmtXY .ldReg⟩, ⟨0x8001, 0xF00F, fmtXY .orReg⟩,
   ⟨0x8002, 0xF00F, fmtXY .andReg⟩, ⟨0x8003, 0xF00F, fmtXY .xorReg⟩,
   ⟨0x8004, 0xF00F, fmtXY .addReg⟩, ⟨0x8005, 0xF00F, fmtXY .subReg⟩,
   ⟨0x8007, 0xF00F, fmtXY .subnReg⟩, ⟨0x8006, 0xF00F, fmtXY .shr⟩,
   ⟨0x800E, 0xF00F, fmtXY .shl⟩]

/-- Rows 21 to 26 of R66. -/
def tableMiddle : List Descriptor :=
  [⟨0xA000, 0xF000, fmtNNN .ldI⟩, ⟨0xB000, 0xF000, fmtNNN .jpV0⟩,
   ⟨0xC000, 0xF000, fmtXKK .rnd⟩, ⟨0xD000, 0xF000, fmtXYN .drw⟩,
   ⟨0xE09E, 0xF0FF, fmtX .skp⟩, ⟨0xE0A1, 0xF0FF, fmtX .sknp⟩]

/-- Rows 27 to 35 of R66. -/
def tableF : List Descriptor :=
  [⟨0xF007, 0xF0FF, fmtX .ldVxDT⟩, ⟨0xF00A, 0xF0FF, fmtX .ldVxK⟩,
   ⟨0xF015, 0xF0FF, fmtX .ldDTVx⟩, ⟨0xF018, 0xF0FF, fmtX .ldSTVx⟩,
   ⟨0xF01E, 0xF0FF, fmtX .addIVx⟩, ⟨0xF029, 0xF0FF, fmtX .ldFVx⟩,
   ⟨0xF033, 0xF0FF, fmtX .ldBVx⟩, ⟨0xF055, 0xF0FF, fmtX .ldMemVx⟩,
   ⟨0xF065, 0xF0FF, fmtX .ldVxMem⟩]

/-- The 35 descriptors in table order (R66). -/
def opcodeTable : List Descriptor := tableControl ++ tableAlu ++ tableMiddle ++ tableF

/-- R64 (1): the descriptor's "`pattern` exactly equals the full word". -/
def Descriptor.matchesExactly (d : Descriptor) (w : Word) : Bool := w == d.pattern

/-- R64 (2): "`(word & mask) == pattern`". -/
def Descriptor.matchesMasked (d : Descriptor) (w : Word) : Bool := w &&& d.mask == d.pattern

/-- R64: the exact scan of all descriptors, then the masked scan, each in table order. -/
def lookup (w : Word) : Option Descriptor :=
  match opcodeTable.find? (fun d => d.matchesExactly w) with
  | some d => some d
  | none => opcodeTable.find? (fun d => d.matchesMasked w)

/-- Lookup and argument decode of one word; `none` is R64 (3), "the lookup fails". -/
def decodeWord (w : Word) : Option Instr := (lookup w).map (fun d => d.build w)

/-! ### The priority decode (R65, R68) -/

/-- The row of R68 with top nibble 8, selected by `w[3:0]`. -/
def decodeByLowNibble (w : Word) : Option Instr :=
  match (w.extractLsb' 0 4).toNat with
  | 0x0 => some (fmtXY .ldReg w)
  | 0x1 => some (fmtXY .orReg w)
  | 0x2 => some (fmtXY .andReg w)
  | 0x3 => some (fmtXY .xorReg w)
  | 0x4 => some (fmtXY .addReg w)
  | 0x5 => some (fmtXY .subReg w)
  | 0x6 => some (fmtXY .shr w)
  | 0x7 => some (fmtXY .subnReg w)
  | 0xE => some (fmtXY .shl w)
  | _ => none

/-- The rows of R68 with top nibble E, selected by `w[7:0]`. -/
def decodeByKeyByte (w : Word) : Option Instr :=
  match (w.extractLsb' 0 8).toNat with
  | 0x9E => some (fmtX .skp w)
  | 0xA1 => some (fmtX .sknp w)
  | _ => none

/-- The rows of R68 with top nibble F, selected by `w[7:0]`. -/
def decodeByLowByte (w : Word) : Option Instr :=
  match (w.extractLsb' 0 8).toNat with
  | 0x07 => some (fmtX .ldVxDT w)
  | 0x0A => some (fmtX .ldVxK w)
  | 0x15 => some (fmtX .ldDTVx w)
  | 0x18 => some (fmtX .ldSTVx w)
  | 0x1E => some (fmtX .addIVx w)
  | 0x29 => some (fmtX .ldFVx w)
  | 0x33 => some (fmtX .ldBVx w)
  | 0x55 => some (fmtX .ldMemVx w)
  | 0x65 => some (fmtX .ldVxMem w)
  | _ => none

/-- The opcode map of R68, read as the priority decode of R65: the words 0x00E0 and 0x00EE first, then the top
nibble and the selector its row names. The machine uses `decodeWord`; that the two agree is an obligation. -/
def decodeByNibbles (w : Word) : Option Instr :=
  if w = 0x00E0 then some .cls
  else if w = 0x00EE then some .ret
  else
    match (w.extractLsb' 12 4).toNat with
    | 0x0 => some (fmtNNN .sys w)
    | 0x1 => some (fmtNNN .jp w)
    | 0x2 => some (fmtNNN .call w)
    | 0x3 => some (fmtXKK .seImm w)
    | 0x4 => some (fmtXKK .sneImm w)
    | 0x5 => if w.extractLsb' 0 4 = 0 then some (fmtXY .seReg w) else none
    | 0x6 => some (fmtXKK .ldImm w)
    | 0x7 => some (fmtXKK .addImm w)
    | 0x8 => decodeByLowNibble w
    | 0x9 => if w.extractLsb' 0 4 = 0 then some (fmtXY .sneReg w) else none
    | 0xA => some (fmtNNN .ldI w)
    | 0xB => some (fmtNNN .jpV0 w)
    | 0xC => some (fmtXKK .rnd w)
    | 0xD => some (fmtXYN .drw w)
    | 0xE => decodeByKeyByte w
    | _ => decodeByLowByte w

/-! ### Bytes -/

/-- R40, R60: "16-bit big-endian value assembled from two consecutive memory bytes". -/
def wordOfBytes (hi lo : Byte) : Word := hi ++ lo

/-- The two bytes of a word in the order memory holds them (R40). -/
def bytesOfWord (w : Word) : List Byte := [w.extractLsb' 8 8, w.extractLsb' 0 8]

/-- Why bytes are not an instruction. -/
inductive DecodeError where
  /-- Fewer than the two bytes every instruction has (R60). -/
  | truncated
  /-- No descriptor matches the word (R64 (3), R69). -/
  | unmatched (w : Word)
  deriving DecidableEq, Repr

/-- Decoding of a list of bytes: the first instruction and the bytes after it. -/
def decode : List Byte → Except DecodeError (Instr × List Byte)
  | hi :: lo :: rest =>
    match decodeWord (wordOfBytes hi lo) with
    | some i => .ok (i, rest)
    | none => .error (.unmatched (wordOfBytes hi lo))
  | [_] => .error .truncated
  | [] => .error .truncated

/-- The first word of an instruction given as `nbits` bits of `w`, numbered as spec/opcode_table.json numbers
them (every instruction here is one word, R60); bits above `nbits` are 0. -/
def tableWord (nbits w : Nat) : Word := BitVec.ofNat 16 (w % 2 ^ nbits)

/-- What the decoder reads from the bytes of a table word, laid out big-endian (R40). -/
def decodeTableWord (nbits w : Nat) : Option Instr :=
  match decode (bytesOfWord (tableWord nbits w)) with
  | .ok (i, _) => some i
  | .error _ => none

/-! ### The encoder, from the `encoding` column of R66 -/

/-- A register index or count as a nibble of the word. -/
def nib (k : Fin 16) : BitVec 4 := BitVec.ofFin k

/-- `Tnnn`. -/
def encNNN (t : BitVec 4) (nnn : Addr12) : Word := t ++ nnn

/-- `Txkk`. -/
def encXKK (t : BitVec 4) (x : RegIdx) (kk : Byte) : Word := t ++ (nib x ++ kk : BitVec 12)

/-- `TxyN` with a fixed low nibble, or DRW's count there. -/
def encXYN (t : BitVec 4) (x y : RegIdx) (n : BitVec 4) : Word :=
  t ++ (nib x ++ (nib y ++ n : BitVec 8) : BitVec 12)

/-- The word of an instruction (R66, column `encoding`). -/
def encode : Instr → Word
  | .sys nnn => encNNN 0x0 nnn
  | .cls => 0x00E0
  | .ret => 0x00EE
  | .jp nnn => encNNN 0x1 nnn
  | .call nnn => encNNN 0x2 nnn
  | .seImm x kk => encXKK 0x3 x kk
  | .sneImm x kk => encXKK 0x4 x kk
  | .seReg x y => encXYN 0x5 x y 0x0
  | .sneReg x y => encXYN 0x9 x y 0x0
  | .ldImm x kk => encXKK 0x6 x kk
  | .addImm x kk => encXKK 0x7 x kk
  | .ldReg x y => encXYN 0x8 x y 0x0
  | .orReg x y => encXYN 0x8 x y 0x1
  | .andReg x y => encXYN 0x8 x y 0x2
  | .xorReg x y => encXYN 0x8 x y 0x3
  | .addReg x y => encXYN 0x8 x y 0x4
  | .subReg x y => encXYN 0x8 x y 0x5
  | .subnReg x y => encXYN 0x8 x y 0x7
  | .shr x y => encXYN 0x8 x y 0x6
  | .shl x y => encXYN 0x8 x y 0xE
  | .ldI nnn => encNNN 0xA nnn
  | .jpV0 nnn => encNNN 0xB nnn
  | .rnd x kk => encXKK 0xC x kk
  | .drw x y n => encXYN 0xD x y (nib n)
  | .skp x => encXKK 0xE x 0x9E
  | .sknp x => encXKK 0xE x 0xA1
  | .ldVxDT x => encXKK 0xF x 0x07
  | .ldVxK x => encXKK 0xF x 0x0A
  | .ldDTVx x => encXKK 0xF x 0x15
  | .ldSTVx x => encXKK 0xF x 0x18
  | .addIVx x => encXKK 0xF x 0x1E
  | .ldFVx x => encXKK 0xF x 0x29
  | .ldBVx x => encXKK 0xF x 0x33
  | .ldMemVx x => encXKK 0xF x 0x55
  | .ldVxMem x => encXKK 0xF x 0x65

/-- The bytes of an instruction, in memory order. -/
def encodeBytes (i : Instr) : List Byte := bytesOfWord (encode i)

end Sys2Proof
end

