-- ==== Sys2Proof/Machine/Font.lean ====
section
/-! DEFINITION. The built-in font, parameters `FONT_BASE` and `FONT_DATA` of spec/00_scope.md R6 with the
defaults of spec/20_memory.md R48, which marks the bytes `[from general knowledge, not in source]` (D11, G3):
assumption 6. -/

namespace Sys2Proof.Machine

/-- "memory address of the glyph for digit 0" (R6, default 0x000). -/
def fontBase : Nat := 0x000

/-- Glyphs 0 to 3, five bytes each, top row first (R48). -/
def fontRows0 : List Byte :=
  [0xF0, 0x90, 0x90, 0x90, 0xF0,
   0x20, 0x60, 0x20, 0x20, 0x70,
   0xF0, 0x10, 0xF0, 0x80, 0xF0,
   0xF0, 0x10, 0xF0, 0x10, 0xF0]

/-- Glyphs 4 to 7. -/
def fontRows4 : List Byte :=
  [0x90, 0x90, 0xF0, 0x10, 0x10,
   0xF0, 0x80, 0xF0, 0x10, 0xF0,
   0xF0, 0x80, 0xF0, 0x90, 0xF0,
   0xF0, 0x10, 0x20, 0x40, 0x40]

/-- Glyphs 8 to B. -/
def fontRows8 : List Byte :=
  [0xF0, 0x90, 0xF0, 0x90, 0xF0,
   0xF0, 0x90, 0xF0, 0x10, 0xF0,
   0xF0, 0x90, 0xF0, 0x90, 0x90,
   0xE0, 0x90, 0xE0, 0x90, 0xE0]

/-- Glyphs C to F. -/
def fontRowsC : List Byte :=
  [0xF0, 0x80, 0x80, 0x80, 0xF0,
   0xE0, 0x90, 0x90, 0x90, 0xE0,
   0xF0, 0x80, 0xF0, 0x80, 0xF0,
   0xF0, 0x80, 0xF0, 0x80, 0x80]

/-- "the 80 glyph bytes, 5 per digit, digits 0 to F" (R6). -/
def fontData : List Byte := fontRows0 ++ fontRows4 ++ fontRows8 ++ fontRowsC

/-- What an address that nothing has written reads as (R212): `FONT_DATA` from `FONT_BASE` on, else 0. -/
def resetByte (a : Nat) : Byte := if fontBase ≤ a then fontData.getD (a - fontBase) 0 else 0

end Sys2Proof.Machine
end

