-- ==== Sys2Proof/Config.lean ====
section
/-! DEFINITION. What is fixed for the machine and is not state: the parameters of spec/00_scope.md R6 and the
one free value of the instruction set. The font parameters `FONT_BASE` and `FONT_DATA` stand in
Sys2Proof/Machine/Font.lean, the opcode table in Sys2Proof/Decode.lean. -/

namespace Sys2Proof.Config

/-- The byte that the `k`-th execution of RND since the model's counter was 0 draws (spec/41_alu.md R131, D18:
"rnd: any value 0 to 255, drawn anew at each execution"). A FREE VALUE: it has no body, so nothing can be
proved of it that is not true of every byte. DESIGN CHOICE (notes/assumptions/1.md): the free input is an
uninterpreted function of a counter held in State. -/
opaque rnd : Nat → Byte

/-- Reset value of the byte-wide state the source gives none for (R6 `RESET_V`, default 0; D12).
Assumption 2. -/
def resetV : Byte := 0

/-- Reset value of `I` and of every stack slot (`RESET_V` again, at 16 bits; D12). Assumption 2. -/
def resetV16 : Word := 0

/-- Reset value of `lastKey` (R6 `RESET_LASTKEY`: "unspecified (any value 0 to 15)"). DESIGN CHOICE 0,
assumption 3: R213 says that it is never read before a `keyDown` writes it. -/
def resetLastKey : KeyIdx := 0

/-- The reset entry point and the load address (spec/70_reset_and_hazards.md R210, R216). -/
def resetPc : Word := 0x200

end Sys2Proof.Config
end

