-- ==== Sys2Proof/Machine/State.lean ====
section
/-! DEFINITION. The state of CORE (spec/10_state.md: "All state of the block is listed here; there is no
other"), the reasons a step can stop, and the state after reset (spec/70_reset_and_hazards.md R210 to R214). -/

namespace Sys2Proof.Machine

/-- The call-stack pointer (R21): "-1 means the stack is empty, `k >= 0` means slots 0 to `k` are in use and
slot `k` is the top". Its legal values are -1 to 15 and these are all the type has; `Sp.toInt` and `Sp.toBits`
of Machine/Ops.lean give the signed number and its 5-bit encoding (D13). Assumption 5. -/
inductive Sp where
  /-- The value -1. -/
  | empty
  /-- The value `k`, 0 to 15. -/
  | top (k : Fin 16)
  deriving DecidableEq, Repr

/-- "a fixed 32-row × 64-column grid of 1-bit pixels, row-major" (R25): 32 rows of 64 pixels. -/
abbrev Display := Vector (Vector Bool 64) 32

/-- Memory as the cells that differ from the reset contents, at strictly rising addresses (`Memory.wf`). -/
abbrev Memory := List Host.Cell

/-- Every piece of state of spec/10_state.md, under the spec's own names, and one field of the model's own. -/
structure State where
  /-- The general registers V0 to VF (R10); VF is also the flag (R14). -/
  V : Vector Byte 16
  /-- The address register (R20). -/
  I : Word
  /-- The program counter (R16). -/
  pc : Word
  /-- The stack pointer (R21). -/
  sp : Sp
  /-- The 16 return-address slots (R22). -/
  stack : Vector Word 16
  /-- The delay timer (R23). -/
  DT : Byte
  /-- The sound timer (R23). -/
  ST : Byte
  /-- The 4096 bytes of memory (R24). -/
  mem : Memory
  /-- The display (R25). -/
  disp : Display
  /-- The key bitmask (R27): bit `k` is 1 iff key `k` is held down. -/
  keys : Word
  /-- The most recently pressed key (R28). -/
  lastKey : KeyIdx
  /-- THE MODEL'S OWN, not the spec's: how many bytes RND has drawn; the next one is `Config.rnd rndCount`
  (R131, D18; assumption 1). -/
  rndCount : Nat
  deriving DecidableEq, Repr

/-- The fatal conditions of R180, each with the value it records. A step that raises one changes no state
(R186), so the state before it is the state after it. -/
inductive Fault where
  /-- Code 1. The lookup raises it for a word no descriptor matches (R181). The source's own condition. Safe. -/
  | unmatchedInstruction (w : Word)
  /-- Code 2. RET raises it with `sp = -1`; `pc` is the RET's (R182). The source's own condition. Safe. -/
  | stackUnderflow (pc : Word)
  /-- Code 3. CALL raises it with `sp = 15`; `pc` is the CALL's (R183). The spec's decision D7. Safe: the block
  may do something else there, the model claims nothing of it. -/
  | stackOverflow (pc : Word)
  /-- Code 4. The fetch, DRW, LD B, LD [I],Vx and LD Vx,[I] raise it when they would touch an address above
  0xFFF; `addr` is the lowest such address (R184, R44). The spec's decision D8. Safe. -/
  | memoryOutOfRange (addr : Nat)
  /-- Code 5. SKP, SKNP and LD F raise it when `V[x] > 15`; `v` is that value (R185). The spec's decisions D9,
  D10. Safe. -/
  | operandOutOfDomain (v : Byte)
  deriving DecidableEq, Repr

/-- Refusals. Every instruction of the table has its meaning, so no step answers one. -/
inductive Refusal where
  /-- An arm of `exec` without a meaning yet would answer it with the row's mnemonic. No arm does. Safe. -/
  | notModelled (mnemonic : String)
  deriving DecidableEq, Repr

/-- A dark display (R210: "all zero at creation"). -/
def blankDisplay : Display := Vector.replicate 32 (Vector.replicate 64 false)

/-- The state right after reset. Stated by the source (R210): `pc`, `sp`, `DT`, `ST`, `disp`. Decided by the
spec (R211, R212, D12): `V`, `I`, `stack`, `keys` are 0 and memory holds the font and zeros, which is what an
unlisted address reads as. Assumption 3: `lastKey`. Assumption 1: `rndCount`. -/
def State.reset : State where
  V := Vector.replicate 16 Config.resetV
  I := Config.resetV16
  pc := Config.resetPc
  sp := .empty
  stack := Vector.replicate 16 Config.resetV16
  DT := 0
  ST := 0
  mem := []
  disp := blankDisplay
  keys := 0
  lastKey := Config.resetLastKey
  rndCount := 0

end Sys2Proof.Machine
end

