-- ==== Sys2Proof/Machine/Ops.lean ====
section
/-! DEFINITION. The named operations over registers, memory, stack and display that the meanings share, raising
a fatal condition, and fetching an instruction's word. -/

namespace Sys2Proof.Machine

/-- What one instruction or one step answers. -/
abbrev Result := Host.Outcome State Fault Refusal

/-! ### Raising a fatal condition (spec/60_exceptions.md R180, R186, R187) -/

/-- R186: the step "changes no architectural state at all" and the condition is reported to the caller as the
step's result. Nothing is saved, no mode changes, control goes nowhere; so there is nothing to return from
(R187) and the machine has no return operation. -/
def raise (r : Fault) : Result := .fault r

/-- The code of a condition (R180's table, D16). -/
def Fault.code : Fault → Nat
  | .unmatchedInstruction _ => 1
  | .stackUnderflow _ => 2
  | .stackOverflow _ => 3
  | .memoryOutOfRange _ => 4
  | .operandOutOfDomain _ => 5

/-- The recorded value `info` of a condition (R180's table). -/
def Fault.info : Fault → Nat
  | .unmatchedInstruction w => w.toNat
  | .stackUnderflow pc => pc.toNat
  | .stackOverflow pc => pc.toNat
  | .memoryOutOfRange addr => addr
  | .operandOutOfDomain v => v.toNat

/-! ### Writes of single fields -/

/-- `I <- a`. -/
def State.setI (s : State) (a : Word) : State := { s with I := a }

/-- `pc <- target` (R8). -/
def State.setPc (s : State) (target : Word) : State := { s with pc := target }

/-- `sp <- p`. -/
def State.setSp (s : State) (p : Sp) : State := { s with sp := p }

/-- `stack[k] <- w`. -/
def State.setSlot (s : State) (k : Fin 16) (w : Word) : State := { s with stack := s.stack.set k.val w }

/-- `DT <- v`. -/
def State.setDT (s : State) (v : Byte) : State := { s with DT := v }

/-- `ST <- v`. -/
def State.setST (s : State) (v : Byte) : State := { s with ST := v }

/-- All of memory. -/
def State.setMem (s : State) (m : Memory) : State := { s with mem := m }

/-- The whole display. -/
def State.setDisp (s : State) (d : Display) : State := { s with disp := d }

/-- `keys <- m`. -/
def State.setKeys (s : State) (m : Word) : State := { s with keys := m }

/-- `lastKey <- k`. -/
def State.setLastKey (s : State) (k : KeyIdx) : State := { s with lastKey := k }

/-- The model's draw counter moves on by one (assumption 1). -/
def State.countDraw (s : State) : State := { s with rndCount := s.rndCount + 1 }

/-! ### General registers (spec/10_state.md R10, R11) -/

/-- Read of `V[i]`. -/
def State.getV (s : State) (i : RegIdx) : Byte := s.V[i.val]

/-- `V[i] <- v`; the value is 8 bits wide already (R11). -/
def State.setV (s : State) (i : RegIdx) (v : Byte) : State := { s with V := s.V.set i.val v }

/-- The flag register VF, `V[15]` (R14). -/
def vf : RegIdx := 15

/-! ### The program counter (R16, R17, R19) -/

/-- "Every non-branching instruction advances it by exactly 2"; modulo 65536 (R19). -/
def State.advance (s : State) : State := s.setPc (s.pc + 2)

/-- The conditional skips: `pc + 4` if the condition holds, else `pc + 2` (R17). -/
def State.skipIf (s : State) (c : Bool) : State := s.setPc (if c then s.pc + 4 else s.pc + 2)

/-! ### The call stack (R21, R22, D13) -/

/-- `sp` as the signed number it stands for. -/
def Sp.toInt : Sp → Int
  | .empty => -1
  | .top k => (k.val : Int)

/-- `sp` in its 5-bit two's-complement encoding: "-1 is `0b11111`" (R21). -/
def Sp.toBits (p : Sp) : BitVec 5 := BitVec.ofInt 5 p.toInt

/-- `sp + 1` as the slot a CALL fills, or `none` when `sp = 15` and all 16 slots are in use (R103). -/
def Sp.pushed : Sp → Option (Fin 16)
  | .empty => some 0
  | .top k => if h : k.val + 1 < 16 then some ⟨k.val + 1, h⟩ else none

/-- `sp - 1` where `sp = k` (R101). -/
def spBelow (k : Fin 16) : Sp :=
  if k.val = 0 then .empty else .top ⟨k.val - 1, Nat.lt_of_le_of_lt (Nat.sub_le _ _) k.isLt⟩

/-! ### Memory (spec/20_memory.md R44, R47; spec/70_reset_and_hazards.md R212) -/

/-- The canonical form: strictly rising addresses within 0x000 to 0xFFF, and no cell that says what its address
would read as anyway. -/
abbrev Memory.wf (m : Memory) : Prop :=
  m.Pairwise (fun c d => c.1 < d.1) ∧ ∀ c ∈ m, c.1 < 0x1000 ∧ c.2 ≠ resetByte c.1

/-- The byte at an address: the listed one, else the reset contents. -/
def memRead : Memory → Nat → Byte
  | [], a => resetByte a
  | (b, v) :: m, a => if b = a then v else memRead m a

/-- The memory without any cell at `a`. -/
def memErase (m : Memory) (a : Nat) : Memory := m.filter (fun c => c.1 != a)

/-- The memory with a cell put before the first one at a higher address. -/
def memInsert : Memory → Nat → Byte → Memory
  | [], a, v => [(a, v)]
  | (b, w) :: m, a, v => if a < b then (a, v) :: (b, w) :: m else (b, w) :: memInsert m a v

/-- Store of one byte; storing the reset contents leaves no cell. No address is write-protected (R47). -/
def memWrite (m : Memory) (a : Nat) (v : Byte) : Memory :=
  if v = resetByte a then memErase m a else memInsert (memErase m a) a v

/-- Store of bytes at rising addresses (R41, R49). -/
def storeBytes : Memory → Nat → List Byte → Memory
  | m, _, [] => m
  | m, a, v :: vs => storeBytes (memWrite m a v) (a + 1) vs

/-- Load of `n` bytes from rising addresses (R41, R49). -/
def loadBytes (m : Memory) (a n : Nat) : List Byte := (List.range n).map (fun k => memRead m (a + k))

/-- Read of the byte of memory at an address below 0x1000 (`MemRead(addr, 1)` without its check). -/
def State.byteAt (s : State) (a : Nat) : Byte := memRead s.mem a

/-- The check of R44, made once for all `n` addresses an instruction would touch and before its first write: the
lowest address above 0xFFF among `base` to `base + n - 1`, as an unwrapped number, if there is one. -/
def outOfRange (base n : Nat) : Option Nat :=
  if n ≠ 0 ∧ 0xFFF < base + n - 1 then some (max base 0x1000) else none

/-- An effect that touches `base` to `base + n - 1`: `MemoryOutOfRange` if the check fails (R184), else the
effect. -/
def withRange (base n : Nat) (effect : Result) : Result :=
  match outOfRange base n with
  | some addr => raise (.memoryOutOfRange addr)
  | none => effect

/-! ### Fetch (R40, R43, R72) -/

/-- The instruction word at `pc`, "a 16-bit big-endian word" of the bytes at `pc` and `pc + 1`, whatever the
parity of `pc`; or the fetch's `MemoryOutOfRange`. -/
def fetch (s : State) : Except Fault Word :=
  match outOfRange s.pc.toNat 2 with
  | some addr => .error (.memoryOutOfRange addr)
  | none => .ok (wordOfBytes (s.byteAt s.pc.toNat) (s.byteAt (s.pc.toNat + 1)))

/-- Store of a word where the fetch reads it (R40). Above 0xFFE no instruction can be fetched, and there the
state is left as it is. -/
def placeWord (s : State) (w : Word) : State :=
  match outOfRange s.pc.toNat 2 with
  | some _ => s
  | none => s.setMem (storeBytes s.mem s.pc.toNat (bytesOfWord w))

end Sys2Proof.Machine
end

