-- ==== Sys2Proof/Machine/Flags.lean ====
section
/-! DEFINITION. The flag computations (spec/10_state.md R14, spec/41_alu.md R119): "A flag write stores exactly
0 or 1 in `V[15]`". Each takes operand values, read before any write. -/

namespace Sys2Proof.Machine

/-- A flag as the byte VF receives. -/
def flagByte (c : Bool) : Byte := if c then 1 else 0

/-- `V[15] <- c`. -/
def State.setFlag (s : State) (c : Bool) : State := s.setV vf (flagByte c)

/-- ADD Vx,Vy: "carry 1 iff `a + b > 255`", on the raw 9-bit sum (R119, R126). -/
def carryFlag (a b : Byte) : Bool := decide (a.toNat + b.toNat > 255)

/-- SUB and SUBN: "the flag 1 iff `a > b` (strictly: equal operands give difference 0 and flag 0)" (R119). -/
def greaterFlag (a b : Byte) : Bool := decide (a.toNat > b.toNat)

/-- SHR: bit 0 of the operand (R129). -/
def shiftedOutRight (a : Byte) : Bool := a.getLsbD 0

/-- SHL: bit 7 of the operand (R130). -/
def shiftedOutLeft (a : Byte) : Bool := a.getLsbD 7

end Sys2Proof.Machine
end

