-- ==== Sys2Proof/Machine/Operands.lean ====
section
/-! DEFINITION. The operand forms: what an instruction reads before its first write (spec/10_state.md R15 (a)),
with the domain check of SKP, SKNP and LD F. The fields of the word themselves are decoded in
Sys2Proof/Decode.lean (R61). -/

namespace Sys2Proof.Machine

/-- `zext_16(nnn)`: an address operand where it is written to `pc` or `I` (R62). -/
def addrOperand (nnn : Addr12) : Word := nnn.zeroExtend 16

/-- `zext_16(V[x])` (R108, R141). -/
def byteOperand (v : Byte) : Word := v.zeroExtend 16

/-- The operand values `V[0..x]`, in rising order (R144). -/
def regsUpTo (s : State) (x : RegIdx) : List Byte := s.V.toList.take (x.val + 1)

/-- The operand `V[x]` as a key number or a digit, 0 to 15: `OperandOutOfDomain` above that (R185), else the
effect on the index. -/
def withIndex (v : Byte) (effect : Fin 16 → Result) : Result :=
  if h : v.toNat < 16 then effect ⟨v.toNat, h⟩ else raise (.operandOutOfDomain v)

/-- `keys[k]`: the read of `isKeyDown` and the test of SKP and SKNP (spec/60_exceptions.md R200). -/
def isKeyDown (s : State) (k : KeyIdx) : Bool := s.keys.getLsbD k.val

/-- The byte RND draws: the free value at the counter (R131; assumption 1). -/
def drawnByte (s : State) : Byte := Config.rnd s.rndCount

/-- A key index as the byte LD Vx,K stores (R169). -/
def keyByte (k : KeyIdx) : Byte := BitVec.ofNat 8 k.val

/-- The decimal digits of a byte, hundreds, tens, units (R143). -/
def bcdDigits (a : Byte) : List Byte :=
  [BitVec.ofNat 8 (a.toNat / 100), BitVec.ofNat 8 (a.toNat / 10 % 10), BitVec.ofNat 8 (a.toNat % 10)]

/-- The address of a digit's glyph, `FONT_BASE + 5 * V[x]` (R142). -/
def glyphAddr (digit : Fin 16) : Word := BitVec.ofNat 16 (fontBase + 5 * digit.val)

end Sys2Proof.Machine
end

