-- ==== Sys2Proof/Machine/Alu.lean ====
section
/-! DEFINITION. Register and ALU instructions (spec/41_alu.md). Operand values are read from the state before
the instruction, and the writes are made in the order the rule lists them (spec/10_state.md R15, D5:
assumption 7), so that with `x = 15` the later write to VF stays. -/

namespace Sys2Proof.Machine

/-- LD Vx, kk (R120). -/
def execLdImm (x : RegIdx) (kk : Byte) (s : State) : Result := .next (s.setV x kk).advance

/-- ADD Vx, kk (R121): no flag. -/
def execAddImm (x : RegIdx) (kk : Byte) (s : State) : Result := .next (s.setV x (s.getV x + kk)).advance

/-- LD Vx, Vy (R122, D25): `V[x] <- V[y]`. -/
def execLdReg (x y : RegIdx) (s : State) : Result := .next (s.setV x (s.getV y)).advance

/-- OR Vx, Vy (R123): VF is left alone. -/
def execOrReg (x y : RegIdx) (s : State) : Result := .next (s.setV x (s.getV x ||| s.getV y)).advance

/-- AND Vx, Vy (R124): VF is left alone. -/
def execAndReg (x y : RegIdx) (s : State) : Result := .next (s.setV x (s.getV x &&& s.getV y)).advance

/-- XOR Vx, Vy (R125): VF is left alone. -/
def execXorReg (x y : RegIdx) (s : State) : Result := .next (s.setV x (s.getV x ^^^ s.getV y)).advance

/-- ADD Vx, Vy (R126): result, then carry. -/
def execAddReg (x y : RegIdx) (s : State) : Result :=
  .next ((s.setV x (s.getV x + s.getV y)).setFlag (carryFlag (s.getV x) (s.getV y))).advance

/-- SUB Vx, Vy (R127): flag, then `V[x] - V[y]`. -/
def execSubReg (x y : RegIdx) (s : State) : Result :=
  .next ((s.setFlag (greaterFlag (s.getV x) (s.getV y))).setV x (s.getV x - s.getV y)).advance

/-- SUBN Vx, Vy (R128): flag, then `V[y] - V[x]`. -/
def execSubnReg (x y : RegIdx) (s : State) : Result :=
  .next ((s.setFlag (greaterFlag (s.getV y) (s.getV x))).setV x (s.getV y - s.getV x)).advance

/-- SHR Vx (R129): the bit shifted out, then `V[x] >> 1`; `y` is ignored. -/
def execShr (x _y : RegIdx) (s : State) : Result :=
  .next ((s.setFlag (shiftedOutRight (s.getV x))).setV x (s.getV x >>> 1)).advance

/-- SHL Vx (R130): the bit shifted out, then `V[x] << 1`; `y` is ignored. -/
def execShl (x _y : RegIdx) (s : State) : Result :=
  .next ((s.setFlag (shiftedOutLeft (s.getV x))).setV x (s.getV x <<< 1)).advance

/-- RND Vx, kk (R131): a byte drawn anew, AND `kk`. -/
def execRnd (x : RegIdx) (kk : Byte) (s : State) : Result :=
  .next ((s.setV x (drawnByte s &&& kk)).countDraw).advance

end Sys2Proof.Machine
end

