-- ==== Sys2Proof/Machine/ControlFlow.lean ====
section
/-! DEFINITION. Control flow (spec/40_control_flow.md): SYS, RET, JP, CALL, SE, SNE, JP V0. -/

namespace Sys2Proof.Machine

/-- SYS nnn (R100): "advance pc by 2 only"; the operand is ignored. -/
def execSys (_nnn : Addr12) (s : State) : Result := .next s.advance

/-- RET (R101): the empty-stack test first, then `pc <- stack[sp]`, `sp <- sp - 1`; the slot is not cleared. -/
def execRet (s : State) : Result :=
  match s.sp with
  | .empty => raise (.stackUnderflow s.pc)
  | .top k => .next ((s.setPc s.stack[k.val]).setSp (spBelow k))

/-- JP nnn (R102). -/
def execJp (nnn : Addr12) (s : State) : Result := .next (s.setPc (addrOperand nnn))

/-- CALL nnn (R103; C1, C2, D6, D7): the slot at the incremented `sp` receives `pc + 2`. -/
def execCall (nnn : Addr12) (s : State) : Result :=
  match s.sp.pushed with
  | none => raise (.stackOverflow s.pc)
  | some k => .next (((s.setSp (.top k)).setSlot k (s.pc + 2)).setPc (addrOperand nnn))

/-- SE Vx, kk (R104). -/
def execSeImm (x : RegIdx) (kk : Byte) (s : State) : Result := .next (s.skipIf (s.getV x == kk))

/-- SNE Vx, kk (R105). -/
def execSneImm (x : RegIdx) (kk : Byte) (s : State) : Result := .next (s.skipIf (s.getV x != kk))

/-- SE Vx, Vy (R106). -/
def execSeReg (x y : RegIdx) (s : State) : Result := .next (s.skipIf (s.getV x == s.getV y))

/-- SNE Vx, Vy (R107). -/
def execSneReg (x y : RegIdx) (s : State) : Result := .next (s.skipIf (s.getV x != s.getV y))

/-- JP V0, nnn (R108): the sum "is not reduced modulo 4096". -/
def execJpV0 (nnn : Addr12) (s : State) : Result :=
  .next (s.setPc (addrOperand nnn + byteOperand (s.getV 0)))

end Sys2Proof.Machine
end

