-- ==== Sys2Proof/Machine/Sprite.lean ====
section
/-! DEFINITION. The sprite drawing unit (spec/43_display.md R151, R152). -/

namespace Sys2Proof.Machine

/-- `disp[r][c]`. -/
def pixel (d : Display) (r : Fin 32) (c : Fin 64) : Bool := (d[r.val])[c.val]

/-- `disp[r][c] <- b`. -/
def setPixel (d : Display) (r : Fin 32) (c : Fin 64) (b : Bool) : Display :=
  d.set r.val ((d[r.val]).set c.val b)

/-- `y mod 32` as a row. -/
def wrapRow (y : Nat) : Fin 32 := ⟨y % 32, Nat.mod_lt y (by decide)⟩

/-- `x mod 64` as a column. -/
def wrapCol (x : Nat) : Fin 64 := ⟨x % 64, Nat.mod_lt x (by decide)⟩

/-- R151: "XORs `value` into the pixel at wrapped coordinates; returns whether a previously-set pixel became
unset". -/
def drawPixel (d : Display) (value : Bool) (x y : Nat) : Display × Bool :=
  let old := pixel d (wrapRow y) (wrapCol x)
  (setPixel d (wrapRow y) (wrapCol x) (old ^^ value), old && value)

/-- One bit of a row byte: column offset `col` takes bit `7 - col`, "most-significant bit first per byte"
(R152). The pair carries `hit` along. -/
def drawBit (byte : Byte) (x y : Nat) (acc : Display × Bool) (col : Nat) : Display × Bool :=
  let p := drawPixel acc.1 (byte.getLsbD (7 - col)) (x + col) y
  (p.1, acc.2 || p.2)

/-- The eight bits of one row byte. -/
def drawRow (byte : Byte) (x y : Nat) (acc : Display × Bool) : Display × Bool :=
  (List.range 8).foldl (drawBit byte x y) acc

/-- The rows of a sprite from row `y` down. -/
def drawRows : List Byte → Nat → Nat → Display × Bool → Display × Bool
  | [], _, _, acc => acc
  | byte :: rest, x, y, acc => drawRows rest x (y + 1) (drawRow byte x y acc)

/-- R152: the display after `drawSprite(bytes, x, y)` and whether "any call reported a cleared pixel". -/
def drawSprite (d : Display) (bytes : List Byte) (x y : Nat) : Display × Bool :=
  drawRows bytes x y (d, false)

end Sys2Proof.Machine
end

