-- ==== Sys2Proof/Machine/DisplayOps.lean ====
section
/-! DEFINITION. Display instructions (spec/43_display.md): CLS and DRW. -/

namespace Sys2Proof.Machine

/-- CLS (R150): every pixel 0; VF unchanged. -/
def execCls (s : State) : Result := .next (s.setDisp blankDisplay).advance

/-- DRW Vx, Vy, n (R153): the range check, `n` bytes from `I`, the sprite at (`V[x]`, `V[y]`), then VF. The
coordinates are read before VF is written. -/
def execDrw (x y : RegIdx) (n : Count) (s : State) : Result :=
  withRange s.I.toNat n.val
    (let p := drawSprite s.disp (loadBytes s.mem s.I.toNat n.val) (s.getV x).toNat (s.getV y).toNat
     .next ((s.setDisp p.1).setFlag p.2).advance)

end Sys2Proof.Machine
end

