-- ==== Sys2Proof/Machine/IndexMemory.lean ====
section
/-! DEFINITION. Address-register and memory instructions (spec/42_index_memory.md). The one data addressing mode
is `I + k`, unwrapped and checked as a whole before the first write; no access changes `I` (R139). -/

namespace Sys2Proof.Machine

/-- LD I, nnn (R140). -/
def execLdI (nnn : Addr12) (s : State) : Result := .next (s.setI (addrOperand nnn)).advance

/-- ADD I, Vx (R141): modulo 65536, no flag. -/
def execAddIVx (x : RegIdx) (s : State) : Result := .next (s.setI (s.I + byteOperand (s.getV x))).advance

/-- LD F, Vx (R142). -/
def execLdFVx (x : RegIdx) (s : State) : Result :=
  withIndex (s.getV x) (fun digit => .next (s.setI (glyphAddr digit)).advance)

/-- LD B, Vx (R143): three digits at `I`, `I + 1`, `I + 2`. -/
def execLdBVx (x : RegIdx) (s : State) : Result :=
  withRange s.I.toNat 3 (.next (s.setMem (storeBytes s.mem s.I.toNat (bcdDigits (s.getV x)))).advance)

/-- LD [I], Vx (R144): `V[0..x]` at rising addresses from `I`. -/
def execLdMemVx (x : RegIdx) (s : State) : Result :=
  withRange s.I.toNat (x.val + 1)
    (.next (s.setMem (storeBytes s.mem s.I.toNat (regsUpTo s x))).advance)

/-- `V[k] <- Mem[base + k]` for `k` in 0 to `x`; the registers above `x` keep their values (R145). -/
def State.loadRegs (s : State) (x : RegIdx) (base : Nat) : State :=
  { s with V := Vector.ofFn (fun k => if k.val ≤ x.val then s.byteAt (base + k.val) else s.V[k.val]) }

/-- LD Vx, [I] (R145). -/
def execLdVxMem (x : RegIdx) (s : State) : Result :=
  withRange s.I.toNat (x.val + 1) (.next (s.loadRegs x s.I.toNat).advance)

end Sys2Proof.Machine
end

