-- ==== Sys2Proof/Machine/KeysTimers.lean ====
section
/-! DEFINITION. Key and timer instructions (spec/44_keys_timers.md). -/

namespace Sys2Proof.Machine

/-- SKP Vx (R165): skip when the key is down. -/
def execSkp (x : RegIdx) (s : State) : Result :=
  withIndex (s.getV x) (fun k => .next (s.skipIf (isKeyDown s k)))

/-- SKNP Vx (R166): skip when the key is not down. -/
def execSknp (x : RegIdx) (s : State) : Result :=
  withIndex (s.getV x) (fun k => .next (s.skipIf (!isKeyDown s k)))

/-- LD Vx, DT (R167). -/
def execLdVxDT (x : RegIdx) (s : State) : Result := .next (s.setV x s.DT).advance

/-- LD Vx, K (R169): with no key down the step completes and changes nothing, not even `pc`. -/
def execLdVxK (x : RegIdx) (s : State) : Result :=
  if s.keys = 0 then .next s else .next (s.setV x (keyByte s.lastKey)).advance

/-- LD DT, Vx (R168). -/
def execLdDTVx (x : RegIdx) (s : State) : Result := .next (s.setDT (s.getV x)).advance

/-- LD ST, Vx (R170). -/
def execLdSTVx (x : RegIdx) (s : State) : Result := .next (s.setST (s.getV x)).advance

end Sys2Proof.Machine
end

