-- ==== Sys2Proof/Machine/Step.lean ====
section
/-! DEFINITION. The `step` operation of the block (spec/30_encoding.md R72): "fetch, table lookup (§4.2
algorithm), argument decode, and effect invocation, in that order, exactly once". -/

namespace Sys2Proof.Machine

/-- One call of `step`. The first condition met in the order fetch, lookup, effect is the one reported
(spec/60_exceptions.md R188). `step` never decrements a timer (R196): ticks and keys are the host's operations,
Machine/HostOps.lean. -/
def step (s : State) : Host.Outcome State Fault Refusal :=
  match fetch s with
  | .error r => raise r
  | .ok w =>
    match decodeWord w with
    | none => raise (.unmatchedInstruction w)
    | some i => exec i s

/-- `s` with a table word stored where `step` fetches its next instruction (assumption 8: this stands for the
host's `load`, spec/70_reset_and_hazards.md R216, R217). -/
def State.withFetchWord (s : State) (nbits w : Nat) : State := placeWord s (tableWord nbits w)

end Sys2Proof.Machine
end

