-- ==== Sys2Proof/Machine/HostOps.lean ====
section
/-! DEFINITION. The block's operations other than `step` (spec/60_exceptions.md R196 to R201,
spec/70_reset_and_hazards.md R210 to R218 and section 6, spec/43_display.md R154), and sessions: any sequence
of operations a host may issue, "serialised: each is atomic, none overlaps another" (R201). -/

namespace Sys2Proof.Machine

/-- One tick of a counter: "decrementing ... toward zero", "never below zero" (R196). -/
def countDown (v : Byte) : Byte := if v = 0 then 0 else v - 1

/-- `tick()`: both timers (R196, D19). -/
def tick (s : State) : State := (s.setDT (countDown s.DT)).setST (countDown s.ST)

/-- The mask with bit `k` alone. -/
def keyBit (k : KeyIdx) : Word := BitVec.twoPow 16 k.val

/-- `keyDown(k)` (R198): the bit is set and `lastKey <- k`, "also when bit `k` was already 1". A number above 15
is "not a legal call; a model gives it no transition" (D23): no `KeyIdx` is one. -/
def keyDown (k : KeyIdx) (s : State) : State := (s.setKeys (s.keys ||| keyBit k)).setLastKey k

/-- `keyUp(k)` (R199): the bit is cleared, `lastKey` is not changed. -/
def keyUp (k : KeyIdx) (s : State) : State := s.setKeys (s.keys &&& ~~~(keyBit k))

/-- `load(bytes)` (R216): the bytes at 0x200 and up, nothing else; an image longer than 3584 bytes "is not a
legal call" and has no transition (D20). -/
def load (bytes : List Byte) (s : State) : Option State :=
  if bytes.length ≤ 3584 then some (s.setMem (storeBytes s.mem 0x200 bytes)) else none

/-- `reset` (R210 to R214): every piece of the spec's state at its reset value. The model's draw counter goes on,
so that what RND draws after a second reset is as free as before it (assumption 1). -/
def hostReset (s : State) : State := { State.reset with rndCount := s.rndCount }

/-- The operations of R201; the reads of R154, R200 are among them. Reads of other state for observation (D24)
are the fields of `State` themselves. -/
inductive Operation where
  | reset
  | load (bytes : List Byte)
  | step
  | tick
  | keyDown (k : KeyIdx)
  | keyUp (k : KeyIdx)
  | isKeyDown (k : KeyIdx)
  | readDisplay
  deriving DecidableEq, Repr

/-- What an operation answers the host. -/
inductive Response where
  /-- An operation with no result. -/
  | done
  /-- `step`: the condition it raised, if any (R180, R186). -/
  | stepped (condition : Option Fault)
  /-- `isKeyDown`. -/
  | keyIs (down : Bool)
  /-- The display read: the 32 by 64 grid. -/
  | grid (d : Display)
  deriving DecidableEq, Repr

/-- The numeric result of a step, the pair (code, `info`) of R180; code 0, with no `info`, for a step that completes
(D16). -/
def stepCode : Option Fault → Nat × Option Nat
  | none => (0, none)
  | some r => (r.code, some r.info)

/-- One operation: the state after it and the answer, or no transition. A step that raises a condition leaves the
state as it was (R186). -/
def perform (op : Operation) (s : State) : Option (State × Response) :=
  match op with
  | .reset => some (hostReset s, .done)
  | .load bytes => (load bytes s).map (fun t => (t, .done))
  | .step =>
    match step s with
    | .next t => some (t, .stepped none)
    | .fault r => some (s, .stepped (some r))
    | .refused _ => none
  | .tick => some (tick s, .done)
  | .keyDown k => some (keyDown k s, .done)
  | .keyUp k => some (keyUp k s, .done)
  | .isKeyDown k => some (s, .keyIs (isKeyDown s k))
  | .readDisplay => some (s, .grid s.disp)

/-- A session: operations in the order the host issues them. Any number of ticks, key operations and loads may
stand between two steps (R196, R201). -/
def session : List Operation → State → Option State
  | [], s => some s
  | op :: ops, s =>
    match perform op s with
    | some (t, _) => session ops t
    | none => none

end Sys2Proof.Machine
end

