-- ==== Sys2Proof/Safety.lean ====
section
/-! DEFINITION. The terms claims are stated in: a run without a fatal condition, which condition an effect raises,
what a step leaves alone, where `pc` goes, and the invariants of the state. Each is written from the spec's
tables on plain numbers, not from the meanings it is used to judge. -/

namespace Sys2Proof.Machine

/-- A safe run: `n` steps with no host operation between them, none of which raises a condition
(spec/60_exceptions.md R186: "the faulted run is not a good end of a program"). -/
def RunsSafely (n : Nat) (s : State) : Prop := ∃ t, Sys2Proof.core.run n s = .next t

/-! ### Fatal conditions of the effects (spec/60_exceptions.md R180, R188) -/

/-- R44 for `n` addresses from `base`, on unwrapped numbers: the condition they raise. -/
def rangeCondition (base n : Nat) : Option Fault :=
  if 0 < n ∧ 0xFFF < base + (n - 1) then some (.memoryOutOfRange (max base 0x1000)) else none

/-- R185: the condition of a key number or digit above 15. -/
def domainCondition (v : Byte) : Option Fault :=
  if 15 < v.toNat then some (.operandOutOfDomain v) else none

/-- R188: "the one condition the instruction's effect can raise", with its recorded value (R180). -/
def effectCondition : Instr → State → Option Fault
  | .ret, s => if s.sp.toInt = -1 then some (.stackUnderflow s.pc) else none
  | .call _, s => if s.sp.toInt = 15 then some (.stackOverflow s.pc) else none
  | .skp x, s => domainCondition (s.getV x)
  | .sknp x, s => domainCondition (s.getV x)
  | .ldFVx x, s => domainCondition (s.getV x)
  | .drw _ _ n, s => rangeCondition s.I.toNat n.val
  | .ldBVx _, s => rangeCondition s.I.toNat 3
  | .ldMemVx x, s => rangeCondition s.I.toNat (x.val + 1)
  | .ldVxMem x, s => rangeCondition s.I.toNat (x.val + 1)
  | .sys _, _ | .cls, _ | .jp _, _ | .seImm _ _, _ | .sneImm _ _, _ | .seReg _ _, _ | .sneReg _ _, _ => none
  | .ldImm _ _, _ | .addImm _ _, _ | .ldReg _ _, _ | .orReg _ _, _ | .andReg _ _, _ | .xorReg _ _, _ => none
  | .addReg _ _, _ | .subReg _ _, _ | .subnReg _ _, _ | .shr _ _, _ | .shl _ _, _ | .ldI _, _ => none
  | .jpV0 _, _ | .rnd _ _, _ | .ldVxDT _, _ | .ldVxK _, _ | .ldDTVx _, _ | .ldSTVx _, _ | .addIVx _, _ => none

/-! ### The program counter (spec/10_state.md R17) -/

/-- R17's table: the new `pc` of each instruction, on numbers; `pc + 2` and `pc + 4` are modulo 65536 (R19). -/
def nextPc (i : Instr) (s : State) : Nat :=
  let by2 := (s.pc.toNat + 2) % 65536
  let by4 := (s.pc.toNat + 4) % 65536
  match i with
  | .jp nnn => nnn.toNat
  | .call nnn => nnn.toNat
  | .ret => match s.sp with
    | .empty => s.pc.toNat
    | .top k => s.stack[k.val].toNat
  | .jpV0 nnn => nnn.toNat + (s.getV 0).toNat
  | .seImm x kk => if s.getV x = kk then by4 else by2
  | .seReg x y => if s.getV x = s.getV y then by4 else by2
  | .skp x => if s.keys.getLsbD (s.getV x).toNat then by4 else by2
  | .sneImm x kk => if s.getV x = kk then by2 else by4
  | .sneReg x y => if s.getV x = s.getV y then by2 else by4
  | .sknp x => if s.keys.getLsbD (s.getV x).toNat then by2 else by4
  | .ldVxK _ => if s.keys = 0 then s.pc.toNat else by2
  | .sys _ | .cls | .ldImm _ _ | .addImm _ _ | .ldReg _ _ | .orReg _ _ | .andReg _ _ | .xorReg _ _ => by2
  | .addReg _ _ | .subReg _ _ | .subnReg _ _ | .shr _ _ | .shl _ _ | .ldI _ | .rnd _ _ | .drw _ _ _ => by2
  | .ldVxDT _ | .ldDTVx _ | .ldSTVx _ | .addIVx _ | .ldFVx _ | .ldBVx _ | .ldMemVx _ | .ldVxMem _ => by2

/-! ### Frames -/

/-- The pieces of state other than `pc` (spec/10_state.md), down to the single register, slot, byte and pixel. -/
inductive Part where
  | reg (k : RegIdx)
  | addressRegister
  | stackPointer
  | slot (k : Fin 16)
  | delayTimer
  | soundTimer
  | byte (a : Nat)
  | pixel (r : Fin 32) (c : Fin 64)
  | keyMask
  | lastKey
  | draws

/-- The piece `p` has the same value in both states. A byte of memory is compared by reading it. -/
def Part.Same (p : Part) (s t : State) : Prop :=
  match p with
  | .reg k => t.getV k = s.getV k
  | .addressRegister => t.I = s.I
  | .stackPointer => t.sp = s.sp
  | .slot k => t.stack[k.val] = s.stack[k.val]
  | .delayTimer => t.DT = s.DT
  | .soundTimer => t.ST = s.ST
  | .byte a => t.byteAt a = s.byteAt a
  | .pixel r c => Sys2Proof.Machine.pixel t.disp r c = Sys2Proof.Machine.pixel s.disp r c
  | .keyMask => t.keys = s.keys
  | .lastKey => t.lastKey = s.lastKey
  | .draws => t.rndCount = s.rndCount

/-- Everything but `pc` and the parts named by `changed` is the same. -/
def KeepsAllBut (changed : Part → Prop) (s t : State) : Prop := ∀ p, ¬ changed p → p.Same s t

/-- No part at all. -/
def nothing : Part → Prop := fun _ => False

/-- One general register. -/
def onlyReg (k : RegIdx) : Part → Prop := fun p => p = .reg k

/-- One general register and VF. -/
def regAndFlag (k : RegIdx) : Part → Prop := fun p => p = .reg k ∨ p = .reg 15

/-- The `n` bytes of memory from `base`. -/
def bytesFrom (base n : Nat) : Part → Prop := fun p => ∃ k, k < n ∧ p = .byte (base + k)

/-! ### Encodings, fetched words, sprites -/

/-- Every word whose bits under `mask` are `pattern` decodes to the instruction its fields give
(spec/30_encoding.md R61, R66). -/
def Encodes (pattern mask : Word) (build : Word → Instr) : Prop :=
  ∀ w : Word, w &&& mask = pattern → decodeWord w = some (build w)

/-- The word the fetch assembles at `pc`: `256 * Mem[pc] + Mem[pc + 1]` (spec/20_memory.md R40). -/
def wordAtPc (s : State) : Word :=
  BitVec.ofNat 16 (256 * (s.byteAt s.pc.toNat).toNat + (s.byteAt (s.pc.toNat + 1)).toNat)

/-- Whether the sprite `bytes` drawn at column `x`, row `y` has a 1 bit on the pixel at row `r`, column `c`: "The
pixel for bit `7 - col` of row `row` is `disp[(cy + row) mod 32][(cx + col) mod 64]`" (spec/43_display.md R153). -/
def Covers (bytes : List Byte) (x y : Nat) (r : Fin 32) (c : Fin 64) : Prop :=
  ∃ (row : Fin bytes.length) (col : Fin 8),
    (y + row.val) % 32 = r.val ∧ (x + col.val) % 64 = c.val ∧ (bytes[row.val]).getLsbD (7 - col.val) = true

/-! ### Invariants -/

/-- Memory is canonical and within the address space; `pc` is at most 0x10FE (spec/10_state.md R19: "no
instruction can set `pc` above 0x10FE"); every stack slot is a return address of a CALL that was fetched, at most
0x1000 (spec/40_control_flow.md R103). The other invariants of R30 hold by the types of State's fields. -/
structure Inv (s : State) : Prop where
  memory : Memory.wf s.mem
  pcBound : s.pc.toNat ≤ 0x10FE
  slots : ∀ k : Fin 16, s.stack[k.val].toNat ≤ 0x1000

/-- Two states that agree on all but the stack slots no CALL since the stack was last that low has filled: those
above the top (spec/10_state.md R22). -/
def AgreeBelowTop (s t : State) : Prop :=
  t = { s with stack := t.stack } ∧ ∀ k : Fin 16, (k.val : Int) ≤ s.sp.toInt → t.stack[k.val] = s.stack[k.val]

end Sys2Proof.Machine
end

