-- ==== Sys2Proof/Certificates/Slice0/Obligations.lean ====
section
/-! DEFINITION. The statements for the provers. Each docstring names the rule of spec/ it formalises; where a
clause rests on a decision of the spec (D1 to D25 of spec/92_eei_decisions.md) or on an entry of the model's own
log, it says so. The numbers of every encoding are those of the instruction's own rule; R66 marks them as general
knowledge (decision D1, log entry 4), so every clause `Encodes` and every decoded word rests on them.
`Encodes pattern mask build` is the rule's encoding line, `exec` its effect, `KeepsAllBut` its
frame: every piece of state but `pc` and the ones named. -/

open Sys2Proof Sys2Proof.Machine

/-! ### Encoding and lookup (spec/30_encoding.md) -/

/-- Decoding the bytes of any well-formed instruction, whatever follows them, gives the instruction back with every
operand and leaves what follows. -/
def Obligations.DecodeOfEncodeIsTheInstruction : Prop :=
  ∀ (i : Instr) (rest : List Byte), i.wellFormed = true → decode (encodeBytes i ++ rest) = .ok (i, rest)

/-- Whatever is decoded is well formed, has exactly the two bytes it was decoded from, and leaves the rest: no bit
of a legal word is dropped. -/
def Obligations.EncodeOfDecodeIsTheBytes : Prop :=
  ∀ (b0 b1 : Byte) (rest left : List Byte) (i : Instr), decode (b0 :: b1 :: rest) = .ok (i, left) →
    i.wellFormed = true ∧ encodeBytes i = [b0, b1] ∧ left = rest

/-- R65, R68 (both marked derived): the two scans of R64 over the table of R66 give, for every word, what the
priority decode by nibbles gives. -/
def Obligations.TableLookupIsTheOpcodeMap : Prop :=
  ∀ w : Word, decodeWord w = decodeByNibbles w

/-- R65: the only words that two descriptors match under the masked test are 0x00E0 and 0x00EE. -/
def Obligations.OnlyClsAndRetMatchTwoRows : Prop :=
  (∀ (w : Word) (j k : Fin opcodeTable.length), j ≠ k →
    (opcodeTable[j.val]).matchesMasked w = true → (opcodeTable[k.val]).matchesMasked w = true →
      w = 0x00E0 ∨ w = 0x00EE) ∧
  decodeWord 0x00E0 = some .cls ∧ decodeWord 0x00EE = some .ret

/-- R69 (marked derived): exactly which words no descriptor matches, by nibble and low byte. -/
def Obligations.IllegalWordsAreExactlyThoseListed : Prop :=
  ∀ w : Word, decodeWord w = none ↔
    (w.toNat / 4096 = 5 ∧ w.toNat % 16 ≠ 0) ∨
    (w.toNat / 4096 = 9 ∧ w.toNat % 16 ≠ 0) ∨
    (w.toNat / 4096 = 8 ∧ w.toNat % 16 ∈ [0x8, 0x9, 0xA, 0xB, 0xC, 0xD, 0xF]) ∨
    (w.toNat / 4096 = 14 ∧ w.toNat % 256 ∉ [0x9E, 0xA1]) ∨
    (w.toNat / 4096 = 15 ∧ w.toNat % 256 ∉ [0x07, 0x0A, 0x15, 0x18, 0x1E, 0x29, 0x33, 0x55, 0x65])

/-- Words written out from the encodings of R66, one or two for each family, decode to their instructions; the
source's example 0x5123 does not decode. -/
def Obligations.WordsOfTheTableDecode : Prop :=
  decodeWord 0x0123 = some (.sys 0x123) ∧ decodeWord 0x220A = some (.call 0x20A) ∧
  decodeWord 0x3AFF = some (.seImm 10 0xFF) ∧ decodeWord 0x9340 = some (.sneReg 3 4) ∧
  decodeWord 0x6A2C = some (.ldImm 10 0x2C) ∧ decodeWord 0x8017 = some (.subnReg 0 1) ∧
  decodeWord 0x8AB6 = some (.shr 10 11) ∧ decodeWord 0xA300 = some (.ldI 0x300) ∧
  decodeWord 0xD12F = some (.drw 1 2 15) ∧ decodeWord 0xE1A1 = some (.sknp 1) ∧
  decodeWord 0xFA15 = some (.ldDTVx 10) ∧ decodeWord 0xF265 = some (.ldVxMem 2) ∧ decodeWord 0x5123 = none

/-! ### The step (spec/30_encoding.md R72, spec/20_memory.md R40, R43) -/

/-- R72, R40, R43: a step at any `pc` up to 0xFFE, odd or even, takes the big-endian word of the bytes at `pc` and
`pc + 1`, and is `exec` of the instruction that word decodes to, or the condition of R181 with that word. Nothing
is added around `exec`. -/
def Obligations.StepRunsTheDecodedInstruction : Prop :=
  ∀ s : State, s.pc.toNat ≤ 0xFFE →
    (wordAtPc s).toNat = 256 * (s.byteAt s.pc.toNat).toNat + (s.byteAt (s.pc.toNat + 1)).toNat ∧
    (∀ i, decodeWord (wordAtPc s) = some i → step s = exec i s) ∧
    (decodeWord (wordAtPc s) = none → step s = .fault (.unmatchedInstruction (wordAtPc s)))

/-- R44 for the fetch (decision D8): at `pc = 0xFFF` it reports 0x1000, above that `pc` itself, without wrap. -/
def Obligations.FetchAboveTheTopFaults : Prop :=
  ∀ s : State, (s.pc.toNat = 0xFFF → step s = .fault (.memoryOutOfRange 0x1000)) ∧
    (0xFFF < s.pc.toNat → step s = .fault (.memoryOutOfRange s.pc.toNat))

/-! ### Fatal conditions (spec/60_exceptions.md) -/

/-- R180, R188 (decisions D7 to D10, D17): an effect raises the one condition its rule checks, with the recorded
value, exactly where the check fails; everywhere else the instruction completes. Covers all 35. -/
def Obligations.EffectsCompleteOrRaiseTheirOneCondition : Prop :=
  ∀ (i : Instr) (s : State),
    (∀ r, effectCondition i s = some r → exec i s = .fault r) ∧
    (effectCondition i s = none → ∃ t, exec i s = .next t)

/-- R44 (decision D8): the range check reports exactly the lowest address above 0xFFF among those touched. -/
def Obligations.RangeCheckReportsTheLowestAddress : Prop :=
  ∀ base n addr : Nat, outOfRange base n = some addr ↔
    (base ≤ addr ∧ addr < base + n ∧ 0xFFF < addr) ∧
      ∀ a, base ≤ a → a < base + n → 0xFFF < a → addr ≤ a

/-- R186 (decision D15): a step that raises a condition changes no state and reports it; called again it raises the
same condition. The pair (code, `info`) reported is the row of R180's table (decision D16), one clause for each. -/
def Obligations.ConditionLeavesTheStateAndRepeats : Prop :=
  (∀ (s : State) (r : Fault), step s = .fault r →
    perform .step s = some (s, .stepped (some r)) ∧
    (∀ n, session (List.replicate n .step) s = some s) ∧
    stepCode (some r) = (r.code, some r.info) ∧ 1 ≤ r.code ∧ r.code ≤ 5) ∧
  stepCode none = (0, none) ∧
  (∀ w : Word, stepCode (some (.unmatchedInstruction w)) = (1, some w.toNat)) ∧
  (∀ pc : Word, stepCode (some (.stackUnderflow pc)) = (2, some pc.toNat)) ∧
  (∀ pc : Word, stepCode (some (.stackOverflow pc)) = (3, some pc.toNat)) ∧
  (∀ addr : Nat, stepCode (some (.memoryOutOfRange addr)) = (4, some addr)) ∧
  (∀ v : Byte, stepCode (some (.operandOutOfDomain v)) = (5, some v.toNat))

/-- Every legal word has a meaning: no step is ever refused. -/
def Obligations.NoStepIsRefused : Prop :=
  ∀ (s : State) (r : Refusal), step s ≠ .refused r

/-! ### Control flow (spec/40_control_flow.md, spec/10_state.md R17) -/

/-- R17: where each of the 35 instructions leaves `pc`, and that a step that raises a condition leaves it. -/
def Obligations.ProgramCounterFollowsItsTable : Prop :=
  (∀ (i : Instr) (s t : State), exec i s = .next t → t.pc.toNat = nextPc i s) ∧
  (∀ (s t : State) (r : Fault) (a : Response), step s = .fault r → perform .step s = some (t, a) → t.pc = s.pc)

/-- R100. -/
def Obligations.SysOnlyAdvancesPc : Prop :=
  (∀ w : Word, w &&& 0xF000 = 0x0000 → w ≠ 0x00E0 → w ≠ 0x00EE → decodeWord w = some (.sys (fieldNNN w))) ∧
  ∀ (nnn : Addr12) (s : State),
    ∃ t, exec (.sys nnn) s = .next t ∧ t.pc = s.pc + 2 ∧ KeepsAllBut nothing s t

/-- R102; a jump to its own address leaves the whole state as it is, and `JP 0xFFF` completes while the next fetch
raises the condition of R44 (decision D8). -/
def Obligations.JumpSetsPc : Prop :=
  Encodes 0x1000 0xF000 (fun w => .jp (fieldNNN w)) ∧
  ∀ (nnn : Addr12) (s : State),
    ∃ t, exec (.jp nnn) s = .next t ∧ t.pc.toNat = nnn.toNat ∧ KeepsAllBut nothing s t ∧
      (s.pc.toNat = nnn.toNat → t = s) ∧ (nnn = 0xFFF → step t = .fault (.memoryOutOfRange 0x1000))

/-- R108: "the sum is 0 to 0x10FE and is not reduced modulo 4096; ... the register is always V0"; above 0xFFE the
next fetch raises the condition of R44 (decision D8). -/
def Obligations.JumpWithOffsetAddsV0 : Prop :=
  Encodes 0xB000 0xF000 (fun w => .jpV0 (fieldNNN w)) ∧
  ∀ (nnn : Addr12) (s : State),
    ∃ t, exec (.jpV0 nnn) s = .next t ∧ t.pc.toNat = nnn.toNat + (s.getV 0).toNat ∧ KeepsAllBut nothing s t ∧
      (0xFFE < nnn.toNat + (s.getV 0).toNat →
        step t = .fault (.memoryOutOfRange (max (nnn.toNat + (s.getV 0).toNat) 0x1000)))

/-- R103 with C1, C2 (decisions D6, D7): the slot at the incremented `sp` receives `pc + 2`; with all 16 slots in use
the condition of R183. -/
def Obligations.CallPushesTheReturnAddress : Prop :=
  Encodes 0x2000 0xF000 (fun w => .call (fieldNNN w)) ∧
  ∀ (nnn : Addr12) (s : State),
    (∀ k : Fin 16, (k.val : Int) = s.sp.toInt + 1 →
      ∃ t, exec (.call nnn) s = .next t ∧ t.sp.toInt = s.sp.toInt + 1 ∧ t.stack[k.val] = s.pc + 2 ∧
        t.pc.toNat = nnn.toNat ∧ KeepsAllBut (fun p => p = .stackPointer ∨ p = .slot k) s t) ∧
    (s.sp.toInt = 15 → exec (.call nnn) s = .fault (.stackOverflow s.pc))

/-- R101: the top slot goes to `pc` as stored, `sp` goes down by one, no slot is cleared; on the empty stack
`StackUnderflow(pc)`. -/
def Obligations.ReturnPopsTheTopSlot : Prop :=
  Encodes 0x00EE 0xFFFF (fun _ => .ret) ∧
  ∀ s : State,
    (∀ k : Fin 16, s.sp.toInt = (k.val : Int) →
      ∃ t, exec .ret s = .next t ∧ t.pc = s.stack[k.val] ∧ t.sp.toInt = s.sp.toInt - 1 ∧
        KeepsAllBut (fun p => p = .stackPointer) s t) ∧
    (s.sp.toInt = -1 → exec .ret s = .fault (.stackUnderflow s.pc))

/-- R103, R101 together (C1): a RET after a CALL resumes after the CALL, with `sp` as before it, and all that has
changed is the slot the CALL filled. -/
def Obligations.ReturnAfterCallResumes : Prop :=
  ∀ (nnn : Addr12) (s : State), s.sp.toInt < 15 →
    ∃ t u, exec (.call nnn) s = .next t ∧ exec .ret t = .next u ∧ u.pc = s.pc + 2 ∧ u.sp = s.sp ∧
      KeepsAllBut (fun p => ∃ k : Fin 16, (k.val : Int) = s.sp.toInt + 1 ∧ p = .slot k) s u

/-- R104, R105. -/
def Obligations.SkipsOnAnImmediate : Prop :=
  Encodes 0x3000 0xF000 (fun w => .seImm (fieldX w) (fieldKK w)) ∧
  Encodes 0x4000 0xF000 (fun w => .sneImm (fieldX w) (fieldKK w)) ∧
  ∀ (x : RegIdx) (kk : Byte) (s : State),
    (∃ t, exec (.seImm x kk) s = .next t ∧ t.pc = (if s.getV x = kk then s.pc + 4 else s.pc + 2) ∧
      KeepsAllBut nothing s t) ∧
    (∃ t, exec (.sneImm x kk) s = .next t ∧ t.pc = (if s.getV x = kk then s.pc + 2 else s.pc + 4) ∧
      KeepsAllBut nothing s t)

/-- R106, R107; "a non-zero low nibble is unmatched". -/
def Obligations.SkipsOnTwoRegisters : Prop :=
  Encodes 0x5000 0xF00F (fun w => .seReg (fieldX w) (fieldY w)) ∧
  Encodes 0x9000 0xF00F (fun w => .sneReg (fieldX w) (fieldY w)) ∧
  (∀ w : Word, w &&& 0xF000 = 0x5000 ∨ w &&& 0xF000 = 0x9000 → w &&& 0x000F ≠ 0 → decodeWord w = none) ∧
  ∀ (x y : RegIdx) (s : State),
    (∃ t, exec (.seReg x y) s = .next t ∧ t.pc = (if s.getV x = s.getV y then s.pc + 4 else s.pc + 2) ∧
      KeepsAllBut nothing s t) ∧
    (∃ t, exec (.sneReg x y) s = .next t ∧ t.pc = (if s.getV x = s.getV y then s.pc + 2 else s.pc + 4) ∧
      KeepsAllBut nothing s t)

/-! ### Registers and ALU (spec/41_alu.md) -/

/-- R120, R121: the sum wraps and VF is written only as the destination. -/
def Obligations.ImmediateLoadAndAdd : Prop :=
  Encodes 0x6000 0xF000 (fun w => .ldImm (fieldX w) (fieldKK w)) ∧
  Encodes 0x7000 0xF000 (fun w => .addImm (fieldX w) (fieldKK w)) ∧
  ∀ (x : RegIdx) (kk : Byte) (s : State),
    (∃ t, exec (.ldImm x kk) s = .next t ∧ t.getV x = kk ∧ t.pc = s.pc + 2 ∧ KeepsAllBut (onlyReg x) s t) ∧
    (∃ t, exec (.addImm x kk) s = .next t ∧ (t.getV x).toNat = ((s.getV x).toNat + kk.toNat) % 256 ∧
      t.pc = s.pc + 2 ∧ KeepsAllBut (onlyReg x) s t)

/-- R122. That the copy goes from `y` to `x` is the spec's decision D25. -/
def Obligations.RegisterCopyGoesFromYToX : Prop :=
  Encodes 0x8000 0xF00F (fun w => .ldReg (fieldX w) (fieldY w)) ∧
  ∀ (x y : RegIdx) (s : State),
    ∃ t, exec (.ldReg x y) s = .next t ∧ t.getV x = s.getV y ∧ t.pc = s.pc + 2 ∧ KeepsAllBut (onlyReg x) s t

/-- R123, R124, R125, bit by bit; VF is left alone unless it is the destination. -/
def Obligations.BitwiseInstructions : Prop :=
  Encodes 0x8001 0xF00F (fun w => .orReg (fieldX w) (fieldY w)) ∧
  Encodes 0x8002 0xF00F (fun w => .andReg (fieldX w) (fieldY w)) ∧
  Encodes 0x8003 0xF00F (fun w => .xorReg (fieldX w) (fieldY w)) ∧
  ∀ (x y : RegIdx) (s : State),
    (∃ t, exec (.orReg x y) s = .next t ∧
      (∀ j, (t.getV x).getLsbD j = ((s.getV x).getLsbD j || (s.getV y).getLsbD j)) ∧
      t.pc = s.pc + 2 ∧ KeepsAllBut (onlyReg x) s t) ∧
    (∃ t, exec (.andReg x y) s = .next t ∧
      (∀ j, (t.getV x).getLsbD j = ((s.getV x).getLsbD j && (s.getV y).getLsbD j)) ∧
      t.pc = s.pc + 2 ∧ KeepsAllBut (onlyReg x) s t) ∧
    (∃ t, exec (.xorReg x y) s = .next t ∧
      (∀ j, (t.getV x).getLsbD j = ((s.getV x).getLsbD j ^^ (s.getV y).getLsbD j)) ∧
      t.pc = s.pc + 2 ∧ KeepsAllBut (onlyReg x) s t)

/-- R126: the wrapped sum, then the carry; with `x = 15` VF ends as the carry. -/
def Obligations.AddRegistersWritesSumThenCarry : Prop :=
  Encodes 0x8004 0xF00F (fun w => .addReg (fieldX w) (fieldY w)) ∧
  ∀ (x y : RegIdx) (s : State),
    ∃ t, exec (.addReg x y) s = .next t ∧
      (x ≠ 15 → (t.getV x).toNat = ((s.getV x).toNat + (s.getV y).toNat) % 256) ∧
      t.getV 15 = (if (s.getV x).toNat + (s.getV y).toNat > 255 then 1 else 0) ∧
      t.pc = s.pc + 2 ∧ KeepsAllBut (regAndFlag x) s t

/-- R127, R128 with the strict flag of C5. With `x = 15` VF ends as the difference, and with `y = 15` the old VF is
the operand: the spec's decision D5. -/
def Obligations.SubtractionsWriteFlagThenDifference : Prop :=
  Encodes 0x8005 0xF00F (fun w => .subReg (fieldX w) (fieldY w)) ∧
  Encodes 0x8007 0xF00F (fun w => .subnReg (fieldX w) (fieldY w)) ∧
  ∀ (x y : RegIdx) (s : State),
    (∃ t, exec (.subReg x y) s = .next t ∧
      (t.getV x).toNat = (256 + (s.getV x).toNat - (s.getV y).toNat) % 256 ∧
      (x ≠ 15 → t.getV 15 = (if (s.getV x).toNat > (s.getV y).toNat then 1 else 0)) ∧
      t.pc = s.pc + 2 ∧ KeepsAllBut (regAndFlag x) s t) ∧
    (∃ t, exec (.subnReg x y) s = .next t ∧
      (t.getV x).toNat = (256 + (s.getV y).toNat - (s.getV x).toNat) % 256 ∧
      (x ≠ 15 → t.getV 15 = (if (s.getV y).toNat > (s.getV x).toNat then 1 else 0)) ∧
      t.pc = s.pc + 2 ∧ KeepsAllBut (regAndFlag x) s t)

/-- R129, R130: the value shifted is `V[x]` whatever `y` is. With `x = 15` VF ends as the result: decision D5. -/
def Obligations.ShiftsWriteBitThenResult : Prop :=
  Encodes 0x8006 0xF00F (fun w => .shr (fieldX w) (fieldY w)) ∧
  Encodes 0x800E 0xF00F (fun w => .shl (fieldX w) (fieldY w)) ∧
  ∀ (x y : RegIdx) (s : State),
    (∃ t, exec (.shr x y) s = .next t ∧ (t.getV x).toNat = (s.getV x).toNat / 2 ∧
      (x ≠ 15 → (t.getV 15).toNat = (s.getV x).toNat % 2) ∧
      t.pc = s.pc + 2 ∧ KeepsAllBut (regAndFlag x) s t) ∧
    (∃ t, exec (.shl x y) s = .next t ∧ (t.getV x).toNat = 2 * (s.getV x).toNat % 256 ∧
      (x ≠ 15 → (t.getV 15).toNat = (s.getV x).toNat / 128) ∧
      t.pc = s.pc + 2 ∧ KeepsAllBut (regAndFlag x) s t)

/-- R131 (decision D18). The byte drawn is the free value `Config.rnd` at the model's counter, which moves on by
one (log entry 1); the statement holds whatever the byte is. -/
def Obligations.RandomAndDrawsOneByte : Prop :=
  Encodes 0xC000 0xF000 (fun w => .rnd (fieldX w) (fieldKK w)) ∧
  ∀ (x : RegIdx) (kk : Byte) (s : State),
    ∃ t, exec (.rnd x kk) s = .next t ∧
      (∀ j, (t.getV x).getLsbD j = ((Config.rnd s.rndCount).getLsbD j && kk.getLsbD j)) ∧
      (kk = 0 → t.getV x = 0) ∧ t.rndCount = s.rndCount + 1 ∧ t.pc = s.pc + 2 ∧
      KeepsAllBut (fun p => p = .reg x ∨ p = .draws) s t

/-- R14: "Every other instruction leaves VF unchanged unless its `x` field is 15", for those that are not the six
flag writers; LD Vx,[I] writes VF only with `x = 15`. And a flag write stores exactly 0 or 1. -/
def Obligations.OnlyFlagWritersAndDestinationsChangeVF : Prop :=
  (∀ (i : Instr) (s t : State), exec i s = .next t →
    (∀ x y, i ≠ .addReg x y ∧ i ≠ .subReg x y ∧ i ≠ .subnReg x y ∧ i ≠ .shr x y ∧ i ≠ .shl x y) →
    (∀ x y n, i ≠ .drw x y n) →
    (∀ kk, i ≠ .ldImm 15 kk ∧ i ≠ .addImm 15 kk ∧ i ≠ .rnd 15 kk) →
    (∀ y, i ≠ .ldReg 15 y ∧ i ≠ .orReg 15 y ∧ i ≠ .andReg 15 y ∧ i ≠ .xorReg 15 y) →
    i ≠ .ldVxDT 15 → i ≠ .ldVxK 15 → i ≠ .ldVxMem 15 → t.getV 15 = s.getV 15) ∧
  (∀ (x y : RegIdx) (n : Count) (s t : State),
    exec (.addReg x y) s = .next t ∨ exec (.drw x y n) s = .next t ∨
      (x ≠ 15 ∧ (exec (.subReg x y) s = .next t ∨ exec (.subnReg x y) s = .next t ∨
        exec (.shr x y) s = .next t ∨ exec (.shl x y) s = .next t)) →
    t.getV 15 = 0 ∨ t.getV 15 = 1)

/-! ### Address register and memory (spec/42_index_memory.md) -/

/-- R140. -/
def Obligations.LoadAddressRegister : Prop :=
  Encodes 0xA000 0xF000 (fun w => .ldI (fieldNNN w)) ∧
  ∀ (nnn : Addr12) (s : State),
    ∃ t, exec (.ldI nnn) s = .next t ∧ t.I.toNat = nnn.toNat ∧ t.pc = s.pc + 2 ∧
      KeepsAllBut (fun p => p = .addressRegister) s t

/-- R141 (modulo 65536: decision D14) and R142 (`FONT_BASE` 0: decision D11; the condition above 15: decision
D10). No flag is written. -/
def Obligations.AddressRegisterSumAndGlyph : Prop :=
  Encodes 0xF01E 0xF0FF (fun w => .addIVx (fieldX w)) ∧
  Encodes 0xF029 0xF0FF (fun w => .ldFVx (fieldX w)) ∧
  ∀ (x : RegIdx) (s : State),
    (∃ t, exec (.addIVx x) s = .next t ∧ t.I.toNat = (s.I.toNat + (s.getV x).toNat) % 65536 ∧
      t.pc = s.pc + 2 ∧ KeepsAllBut (fun p => p = .addressRegister) s t) ∧
    ((s.getV x).toNat ≤ 15 → ∃ t, exec (.ldFVx x) s = .next t ∧ t.I.toNat = 0x000 + 5 * (s.getV x).toNat ∧
      t.pc = s.pc + 2 ∧ KeepsAllBut (fun p => p = .addressRegister) s t) ∧
    (15 < (s.getV x).toNat → exec (.ldFVx x) s = .fault (.operandOutOfDomain (s.getV x)))

/-- R143: three decimal digits at `I`, `I + 1`, `I + 2`, every other byte as before; the condition before the first
write, at the lowest address above 0xFFF (decision D8). -/
def Obligations.BcdStoresThreeDigits : Prop :=
  Encodes 0xF033 0xF0FF (fun w => .ldBVx (fieldX w)) ∧
  ∀ (x : RegIdx) (s : State),
    (s.I.toNat + 2 ≤ 0xFFF → ∃ t, exec (.ldBVx x) s = .next t ∧
      (t.byteAt s.I.toNat).toNat = (s.getV x).toNat / 100 ∧
      (t.byteAt (s.I.toNat + 1)).toNat = (s.getV x).toNat / 10 % 10 ∧
      (t.byteAt (s.I.toNat + 2)).toNat = (s.getV x).toNat % 10 ∧
      t.pc = s.pc + 2 ∧ KeepsAllBut (bytesFrom s.I.toNat 3) s t) ∧
    (0xFFF < s.I.toNat + 2 → exec (.ldBVx x) s = .fault (.memoryOutOfRange (max s.I.toNat 0x1000)))

/-- R144: `V[0..x]` at `I` and up, every other byte as before; the condition above 0xFFF is decision D8. -/
def Obligations.StoreRegistersWritesFromI : Prop :=
  Encodes 0xF055 0xF0FF (fun w => .ldMemVx (fieldX w)) ∧
  ∀ (x : RegIdx) (s : State),
    (s.I.toNat + x.val ≤ 0xFFF → ∃ t, exec (.ldMemVx x) s = .next t ∧
      (∀ k : RegIdx, k.val ≤ x.val → t.byteAt (s.I.toNat + k.val) = s.getV k) ∧
      t.pc = s.pc + 2 ∧ KeepsAllBut (bytesFrom s.I.toNat (x.val + 1)) s t) ∧
    (0xFFF < s.I.toNat + x.val → exec (.ldMemVx x) s = .fault (.memoryOutOfRange (max s.I.toNat 0x1000)))

/-- R145: registers 0 to `x` from `I` and up; registers above `x`, `I` and all of memory as before; the condition
above 0xFFF is decision D8. -/
def Obligations.LoadRegistersReadsFromI : Prop :=
  Encodes 0xF065 0xF0FF (fun w => .ldVxMem (fieldX w)) ∧
  ∀ (x : RegIdx) (s : State),
    (s.I.toNat + x.val ≤ 0xFFF → ∃ t, exec (.ldVxMem x) s = .next t ∧
      (∀ k : RegIdx, k.val ≤ x.val → t.getV k = s.byteAt (s.I.toNat + k.val)) ∧
      t.pc = s.pc + 2 ∧ KeepsAllBut (fun p => ∃ k : RegIdx, k.val ≤ x.val ∧ p = .reg k) s t) ∧
    (0xFFF < s.I.toNat + x.val → exec (.ldVxMem x) s = .fault (.memoryOutOfRange (max s.I.toNat 0x1000)))

/-- R144, R145 ("read-back"): whatever the registers hold in between, loading what was stored gives back the
registers 0 to `x`. -/
def Obligations.StoreThenLoadGivesRegistersBack : Prop :=
  ∀ (x : RegIdx) (s t u : State), exec (.ldMemVx x) s = .next t → u.I = s.I → u.mem = t.mem →
    ∃ v, exec (.ldVxMem x) u = .next v ∧ (∀ k : RegIdx, k.val ≤ x.val → v.getV k = s.getV k) ∧
      ∀ k : RegIdx, x.val < k.val → v.getV k = u.getV k

/-- R51 (marked derived): a store to the next instruction's address is seen by the very next step. -/
def Obligations.StoredInstructionRunsNext : Prop :=
  ∀ (x : RegIdx) (s t : State) (i : Instr), exec (.ldMemVx x) s = .next t → 1 ≤ x.val →
    t.pc.toNat = s.I.toNat → decodeWord (BitVec.ofNat 16 (256 * (s.getV 0).toNat + (s.getV 1).toNat)) = some i →
    step t = exec i t

/-! ### Display (spec/43_display.md) -/

/-- R150. -/
def Obligations.ClearDisplayBlanksEveryPixel : Prop :=
  Encodes 0x00E0 0xFFFF (fun _ => .cls) ∧
  ∀ s : State, ∃ t, exec .cls s = .next t ∧ (∀ r c, pixel t.disp r c = false) ∧ t.pc = s.pc + 2 ∧
    KeepsAllBut (fun p => ∃ r c, p = .pixel r c) s t

/-- R151. -/
def Obligations.DrawPixelXorsOnePixel : Prop :=
  ∀ (d : Display) (value : Bool) (x y : Nat),
    (∀ (r : Fin 32) (c : Fin 64), pixel (drawPixel d value x y).1 r c =
      if r.val = y % 32 ∧ c.val = x % 64 then (pixel d r c ^^ value) else pixel d r c) ∧
    ((drawPixel d value x y).2 = true ↔
      ∃ (r : Fin 32) (c : Fin 64), r.val = y % 32 ∧ c.val = x % 64 ∧ pixel d r c = true ∧
        pixel (drawPixel d value x y).1 r c = false)

/-- R152 for sprites of at most 15 rows, whose pixel positions are distinct: "the whole sprite can be applied at
once". -/
def Obligations.DrawSpriteTogglesWhatItCovers : Prop :=
  ∀ (d : Display) (bytes : List Byte) (x y : Nat), bytes.length ≤ 15 →
    (∀ r c, Covers bytes x y r c → pixel (drawSprite d bytes x y).1 r c = !pixel d r c) ∧
    (∀ r c, ¬ Covers bytes x y r c → pixel (drawSprite d bytes x y).1 r c = pixel d r c) ∧
    ((drawSprite d bytes x y).2 = true ↔
      ∃ r c, pixel d r c = true ∧ pixel (drawSprite d bytes x y).1 r c = false)

/-- R153: `n` bytes from `I` drawn at (`V[x]`, `V[y]`), wrapped per pixel; VF is 1 iff a pixel went from 1 to 0; with
`n = 0` nothing is read or drawn and VF is 0; the condition, before anything changes, is decision D8. -/
def Obligations.DrawInstruction : Prop :=
  Encodes 0xD000 0xF000 (fun w => .drw (fieldX w) (fieldY w) (fieldN w)) ∧
  ∀ (x y : RegIdx) (n : Count) (s : State),
    (n.val = 0 ∨ s.I.toNat + (n.val - 1) ≤ 0xFFF →
      ∃ t, exec (.drw x y n) s = .next t ∧
        (∀ r c, Covers ((List.range n.val).map (fun k => s.byteAt (s.I.toNat + k)))
            (s.getV x).toNat (s.getV y).toNat r c → pixel t.disp r c = !pixel s.disp r c) ∧
        (∀ r c, ¬ Covers ((List.range n.val).map (fun k => s.byteAt (s.I.toNat + k)))
            (s.getV x).toNat (s.getV y).toNat r c → pixel t.disp r c = pixel s.disp r c) ∧
        ((∃ r c, pixel s.disp r c = true ∧ pixel t.disp r c = false) → t.getV 15 = 1) ∧
        ((∀ r c, pixel s.disp r c = true → pixel t.disp r c = true) → t.getV 15 = 0) ∧
        t.pc = s.pc + 2 ∧ KeepsAllBut (fun p => p = .reg 15 ∨ ∃ r c, p = .pixel r c) s t) ∧
    (0 < n.val → 0xFFF < s.I.toNat + (n.val - 1) →
      exec (.drw x y n) s = .fault (.memoryOutOfRange (max s.I.toNat 0x1000)))

/-- The source's example S6 (R153), for every form, sprite and place: drawing the same sprite twice at the same
coordinates restores the display; on a blank display the first draw reports no collision and the second one exactly
when the sprite has a 1 bit. With VF as a coordinate the first draw overwrites it, so there (and for every form) the
second draw is also taken from the state with VF put back. -/
def Obligations.DrawingTwiceRestoresTheDisplay : Prop :=
  ∀ (x y : RegIdx) (n : Count) (s : State), n.val = 0 ∨ s.I.toNat + n.val ≤ 0x1000 →
    ∃ t, exec (.drw x y n) s = .next t ∧
      ∀ t', (x ≠ 15 ∧ y ≠ 15 ∧ t' = t) ∨ t' = t.setV 15 (s.getV 15) →
        ∃ u, exec (.drw x y n) t' = .next u ∧ u.disp = s.disp ∧ KeepsAllBut (onlyReg 15) s u ∧
          ((∀ r c, pixel s.disp r c = false) → t.getV 15 = 0 ∧
            (u.getV 15 = 1 ↔ ∃ k, k < n.val ∧ s.byteAt (s.I.toNat + k) ≠ 0))

/-! ### Keys and timers (spec/44_keys_timers.md, spec/60_exceptions.md) -/

/-- R165, R166 (the condition above 15: decision D9). -/
def Obligations.SkipsOnAKey : Prop :=
  Encodes 0xE09E 0xF0FF (fun w => .skp (fieldX w)) ∧
  Encodes 0xE0A1 0xF0FF (fun w => .sknp (fieldX w)) ∧
  ∀ (x : RegIdx) (s : State),
    (∀ k : KeyIdx, (s.getV x).toNat = k.val →
      (∃ t, exec (.skp x) s = .next t ∧ t.pc = (if s.keys.getLsbD k.val then s.pc + 4 else s.pc + 2) ∧
        KeepsAllBut nothing s t) ∧
      (∃ t, exec (.sknp x) s = .next t ∧ t.pc = (if s.keys.getLsbD k.val then s.pc + 2 else s.pc + 4) ∧
        KeepsAllBut nothing s t)) ∧
    (15 < (s.getV x).toNat →
      exec (.skp x) s = .fault (.operandOutOfDomain (s.getV x)) ∧
      exec (.sknp x) s = .fault (.operandOutOfDomain (s.getV x)))

/-- R169: with no key down nothing changes, not even `pc`; with any key down the value stored is `lastKey`. -/
def Obligations.WaitForKey : Prop :=
  Encodes 0xF00A 0xF0FF (fun w => .ldVxK (fieldX w)) ∧
  ∀ (x : RegIdx) (s : State),
    (s.keys = 0 → exec (.ldVxK x) s = .next s) ∧
    (s.keys ≠ 0 → ∃ t, exec (.ldVxK x) s = .next t ∧ (t.getV x).toNat = s.lastKey.val ∧
      t.pc = s.pc + 2 ∧ KeepsAllBut (onlyReg x) s t)

/-- The source's example S8 (R169): any number of steps at the waiting instruction leave the state as it is, and the
first step after a key press stores that key and moves on. -/
def Obligations.WaitingLastsUntilAKeyIsPressed : Prop :=
  ∀ (x : RegIdx) (k : KeyIdx) (n : Nat) (s : State), s.keys = 0 → s.pc.toNat ≤ 0xFFE →
    decodeWord (wordAtPc s) = some (.ldVxK x) →
    Sys2Proof.core.run n s = .next s ∧
    ∃ t, session (List.replicate n .step ++ [.keyDown k, .step]) s = some t ∧
      (t.getV x).toNat = k.val ∧ t.pc = s.pc + 2

/-- R167, R168, and R170 (of which only the absence of a sound output is a decision, D22). -/
def Obligations.TimerInstructions : Prop :=
  Encodes 0xF007 0xF0FF (fun w => .ldVxDT (fieldX w)) ∧
  Encodes 0xF015 0xF0FF (fun w => .ldDTVx (fieldX w)) ∧
  Encodes 0xF018 0xF0FF (fun w => .ldSTVx (fieldX w)) ∧
  ∀ (x : RegIdx) (s : State),
    (∃ t, exec (.ldVxDT x) s = .next t ∧ t.getV x = s.DT ∧ t.pc = s.pc + 2 ∧ KeepsAllBut (onlyReg x) s t) ∧
    (∃ t, exec (.ldDTVx x) s = .next t ∧ t.DT = s.getV x ∧ t.pc = s.pc + 2 ∧
      KeepsAllBut (fun p => p = .delayTimer) s t) ∧
    (∃ t, exec (.ldSTVx x) s = .next t ∧ t.ST = s.getV x ∧ t.pc = s.pc + 2 ∧
      KeepsAllBut (fun p => p = .soundTimer) s t)

/-- R196, R23: a step never counts a timer down; DT changes only in a step of LD DT,Vx and ST only in a step of
LD ST,Vx. -/
def Obligations.StepsDoNotCountTimersDown : Prop :=
  ∀ s t : State, step s = .next t →
    ((∀ x, decodeWord (wordAtPc s) ≠ some (.ldDTVx x)) → t.DT = s.DT) ∧
    ((∀ x, decodeWord (wordAtPc s) ≠ some (.ldSTVx x)) → t.ST = s.ST)

/-- R196 (one tick for both timers: decision D19): `n` ticks take `n` off each timer, never below zero, and change
nothing else. -/
def Obligations.TicksCountBothTimersDown : Prop :=
  ∀ (n : Nat) (s : State), ∃ t, session (List.replicate n .tick) s = some t ∧
    t.DT.toNat = s.DT.toNat - n ∧ t.ST.toNat = s.ST.toNat - n ∧ t.pc = s.pc ∧
    KeepsAllBut (fun p => p = .delayTimer ∨ p = .soundTimer) s t

/-- R198, R199, R200 (key numbers 0 to 15: decision D23). -/
def Obligations.KeyOperations : Prop :=
  ∀ (k : KeyIdx) (s : State),
    (∃ t, perform (.keyDown k) s = some (t, .done) ∧ t.lastKey = k ∧ t.pc = s.pc ∧
      (∀ j : KeyIdx, isKeyDown t j = (decide (j = k) || isKeyDown s j)) ∧
      KeepsAllBut (fun p => p = .keyMask ∨ p = .lastKey) s t) ∧
    (∃ t, perform (.keyUp k) s = some (t, .done) ∧ t.pc = s.pc ∧
      (∀ j : KeyIdx, isKeyDown t j = (!decide (j = k) && isKeyDown s j)) ∧
      KeepsAllBut (fun p => p = .keyMask) s t) ∧
    perform (.isKeyDown k) s = some (s, .keyIs (s.keys.getLsbD k.val))

/-! ### Load and reset (spec/70_reset_and_hazards.md) -/

/-- R216 (the limit: decision D20): only the image's addresses are written; a longer image has no transition. -/
def Obligations.LoadWritesOnlyTheImage : Prop :=
  ∀ (bytes : List Byte) (s : State),
    (bytes.length ≤ 3584 → ∃ t, perform (.load bytes) s = some (t, .done) ∧
      (∀ k (h : k < bytes.length), t.byteAt (0x200 + k) = bytes[k]) ∧ t.pc = s.pc ∧
      KeepsAllBut (bytesFrom 0x200 bytes.length) s t) ∧
    (3584 < bytes.length → perform (.load bytes) s = none)

/-- R218: the word fetched at 0x200 after a load is the big-endian word of its first two bytes. -/
def Obligations.LoadThenFetchGivesTheFirstWord : Prop :=
  ∀ (b0 b1 : Byte) (rest : List Byte) (s : State), rest.length + 2 ≤ 3584 → s.pc = 0x200 →
    ∃ t, load (b0 :: b1 :: rest) s = some t ∧ t.byteAt 0x200 = b0 ∧ t.byteAt 0x201 = b1 ∧
      ∃ w, fetch t = .ok w ∧ w.toNat = 256 * b0.toNat + b1.toNat

/-- R210: the reset values the source states, of the state after reset (whose first fetch is from 0x200) and of the
`reset` operation from any state. -/
def Obligations.ResetValuesOfTheSource : Prop :=
  (State.reset.pc = 0x200 ∧ State.reset.sp.toInt = -1 ∧ State.reset.DT = 0 ∧ State.reset.ST = 0 ∧
    (∀ r c, pixel State.reset.disp r c = false) ∧
    fetch State.reset = .ok (wordOfBytes (State.reset.byteAt 0x200) (State.reset.byteAt 0x201))) ∧
  ∀ s : State, ∃ t, perform .reset s = some (t, .done) ∧ t.pc = 0x200 ∧ t.sp.toInt = -1 ∧ t.DT = 0 ∧ t.ST = 0 ∧
    ∀ r c, pixel t.disp r c = false

/-- R211, R212, R48: the reset values the spec decides (D11, D12; log entries 2 and 6), from any state before: zero
registers, slots and keys, the font's 80 bytes at 0x000 (R48's table, four glyphs a clause) and zeros above it. -/
def Obligations.ResetValuesTheSpecDecides : Prop :=
  ∀ s : State, ∃ t, perform .reset s = some (t, .done) ∧
    (∀ k : RegIdx, t.getV k = 0) ∧ t.I = 0 ∧ (∀ k : Fin 16, t.stack[k.val] = 0) ∧ t.keys = 0 ∧
    loadBytes t.mem 0 20 =
      [0xF0, 0x90, 0x90, 0x90, 0xF0, 0x20, 0x60, 0x20, 0x20, 0x70,
       0xF0, 0x10, 0xF0, 0x80, 0xF0, 0xF0, 0x10, 0xF0, 0x10, 0xF0] ∧
    loadBytes t.mem 20 20 =
      [0x90, 0x90, 0xF0, 0x10, 0x10, 0xF0, 0x80, 0xF0, 0x10, 0xF0,
       0xF0, 0x80, 0xF0, 0x90, 0xF0, 0xF0, 0x10, 0x20, 0x40, 0x40] ∧
    loadBytes t.mem 40 20 =
      [0xF0, 0x90, 0xF0, 0x90, 0xF0, 0xF0, 0x90, 0xF0, 0x10, 0xF0,
       0xF0, 0x90, 0xF0, 0x90, 0x90, 0xE0, 0x90, 0xE0, 0x90, 0xE0] ∧
    loadBytes t.mem 60 20 =
      [0xF0, 0x80, 0x80, 0x80, 0xF0, 0xE0, 0x90, 0x90, 0x90, 0xE0,
       0xF0, 0x80, 0xF0, 0x80, 0xF0, 0xF0, 0x80, 0xF0, 0x80, 0x80] ∧
    ∀ a, 80 ≤ a → t.byteAt a = 0

/-- R213 (marked derived): while no key is down, what `lastKey` holds makes no difference to a step but to
`lastKey` itself, and no step sets a key; so the reset value the model chose for it (log entry 3) is never read. Both
steps draw at the same count, so their RND bytes are equal by the model's own choice (log entry 1). -/
def Obligations.LastKeyIsNotReadBeforeAKeyDown : Prop :=
  ∀ (s : State) (k : KeyIdx), s.keys = 0 →
    (∀ t, step s = .next t → t.keys = 0 ∧ step (s.setLastKey k) = .next (t.setLastKey k)) ∧
    (∀ r, step s = .fault r → step (s.setLastKey k) = .fault r)

/-- R22, R211: the contents of slots above the top make no difference to a step: the reset values of the stack are
never read before a CALL writes them. Both states have the same draw count, so the bytes their steps draw at RND are
equal by the model's own choice (log entry 1). -/
def Obligations.SlotsAboveTheTopAreNeverRead : Prop :=
  ∀ s t : State, AgreeBelowTop s t →
    (∀ s', step s = .next s' → ∃ t', step t = .next t' ∧ AgreeBelowTop s' t') ∧
    (∀ r, step s = .fault r → step t = .fault r)

/-! ### Invariants -/

/-- The reset state meets the invariant: `pc` is R210's; the slots are 0 by decision D12 (log entry 2); that memory is
a canonical list, and reset's is empty, is the model's own form (log entry 11). -/
def Obligations.ResetMeetsTheInvariant : Prop := Inv State.reset

/-- Every step keeps the invariant. `pc` at most 0x10FE is R19 (marked derived). Every slot at most 0x1000 follows from
R103's stored `pc + 2`, whose value is decision D6 (log entry 12). Canonical memory within the address space is the
model's own form (log entry 11). -/
def Obligations.EveryStepKeepsTheInvariant : Prop :=
  ∀ s t : State, Inv s → step s = .next t → Inv t

/-- Every session (R201), steps, ticks, keys, loads, resets and reads in any order, keeps the invariant. Its clauses
are none of R30's: `pc` is R19 (marked derived), the slots rest on decision D6 (log entry 12) and, after a reset, on
D12 (log entry 2), canonical memory is the model's own form (log entry 11). -/
def Obligations.EverySessionKeepsTheInvariant : Prop :=
  ∀ (ops : List Operation) (s t : State), Inv s → session ops s = some t → Inv t

/-- Canonical memories that read alike are equal as data. The form is the model's own (log entry 11), over the reset
contents the spec decides (D11, D12: log entries 2 and 6). -/
def Obligations.CanonicalMemoriesThatReadAlikeAreEqual : Prop :=
  ∀ m m' : Memory, Memory.wf m → Memory.wf m' → (∀ a, a < 0x1000 → memRead m a = memRead m' a) → m = m'

/-! ### The display read -/

/-- R154: the read answers every pixel as it stands and changes nothing, and "the host cannot write the display": of
its operations only a step and a reset change a pixel. -/
def Obligations.DisplayIsReadAndNotWrittenByTheHost : Prop :=
  (∀ s : State, ∃ d, perform .readDisplay s = some (s, .grid d) ∧ ∀ r c, pixel d r c = pixel s.disp r c) ∧
  ∀ (op : Operation) (s t : State) (a : Response), perform op s = some (t, a) → op ≠ .step → op ≠ .reset →
    ∀ r c, pixel t.disp r c = pixel s.disp r c
end

