-- ==== Sys2Proof/Laws/Decode.lean ====
section
/-! SUPPORT. The lookup: it answers the one row a word matches (spec/30_encoding.md R64, R65), and the fields and
fixed bits of encoded words. -/

namespace Sys2Proof

/-! ### The table invariant of R63 and R65, checked row by row -/

/-- R63: "`pattern & mask = pattern`". -/
theorem opcodeTable_pattern_in_mask : ∀ d ∈ opcodeTable, d.pattern &&& d.mask = d.pattern := by
  decide

/-- Two rows either have incompatible fixed bits or the later one has no variable bits. -/
theorem opcodeTable_pairwise : opcodeTable.Pairwise
    (fun d e => d.pattern &&& e.mask ≠ e.pattern &&& d.mask ∨ e.mask = 0xFFFF) := by
  decide

theorem opcodeTable_exact_rows :
    ∀ d ∈ opcodeTable, d.mask = 0xFFFF → d.pattern = 0x00E0 ∨ d.pattern = 0x00EE := by
  decide

/-- Two rows that match one word agree on their common fixed bits. -/
theorem patterns_compatible (d e : Descriptor) (w : Word) (hd : w &&& d.mask = d.pattern)
    (he : w &&& e.mask = e.pattern) : d.pattern &&& e.mask = e.pattern &&& d.mask := by
  rw [← hd, ← he, BitVec.and_assoc, BitVec.and_assoc, BitVec.and_comm d.mask e.mask]

theorem row_of_exact_word (e : Descriptor) (w : Word) (hmem : e ∈ opcodeTable) (hm : e.mask = 0xFFFF)
    (he : w &&& e.mask = e.pattern) : w = 0x00E0 ∨ w = 0x00EE := by
  have hw : w &&& e.mask = w := by rw [hm]; exact BitVec.and_allOnes
  have h := opcodeTable_exact_rows e hmem hm
  rw [← he, hw] at h
  exact h

/-- R65: "For every other word at most one descriptor matches". -/
theorem opcodeTable_unique (d e : Descriptor) (w : Word) (hd : d ∈ opcodeTable) (he : e ∈ opcodeTable)
    (hwd : w &&& d.mask = d.pattern) (hwe : w &&& e.mask = e.pattern) (h1 : w ≠ 0x00E0) (h2 : w ≠ 0x00EE) :
    d = e := by
  obtain ⟨i, hi, rfl⟩ := List.getElem_of_mem hd
  obtain ⟨j, hj, rfl⟩ := List.getElem_of_mem he
  have hp := List.pairwise_iff_getElem.mp opcodeTable_pairwise
  have hc := patterns_compatible _ _ w hwd hwe
  rcases Nat.lt_trichotomy i j with h | h | h
  · rcases hp i j hi hj h with hn | hm
    · exact absurd hc hn
    · rcases row_of_exact_word _ w he hm hwe with e | e
      · exact absurd e h1
      · exact absurd e h2
  · subst h; rfl
  · rcases hp j i hj hi h with hn | hm
    · exact absurd hc.symm hn
    · rcases row_of_exact_word _ w hd hm hwd with e | e
      · exact absurd e h1
      · exact absurd e h2

/-! ### The lookup -/

/-- Whatever row the lookup answers is in the table and matches under its mask. -/
theorem lookup_matches (w : Word) (d : Descriptor) (h : lookup w = some d) :
    d ∈ opcodeTable ∧ w &&& d.mask = d.pattern := by
  unfold lookup at h
  split at h
  · next e he =>
    obtain rfl := Option.some.inj h
    have hm := List.mem_of_find?_eq_some he
    have hw : w = e.pattern := by simpa [Descriptor.matchesExactly] using List.find?_some he
    exact ⟨hm, by rw [hw]; exact opcodeTable_pattern_in_mask e hm⟩
  · exact ⟨List.mem_of_find?_eq_some h, by simpa [Descriptor.matchesMasked] using List.find?_some h⟩

/-- The lookup fails exactly where no row matches. -/
theorem lookup_eq_none (w : Word) :
    lookup w = none ↔ ∀ d ∈ opcodeTable, w &&& d.mask ≠ d.pattern := by
  constructor
  · intro h d hd
    unfold lookup at h
    split at h
    · exact absurd h (by simp)
    · have := List.find?_eq_none.mp h d hd
      simpa [Descriptor.matchesMasked] using this
  · intro h
    cases hl : lookup w with
    | none => rfl
    | some d => exact absurd (lookup_matches w d hl).2 (h d (lookup_matches w d hl).1)

theorem lookup_of_row (d : Descriptor) (w : Word) (hd : d ∈ opcodeTable) (hw : w &&& d.mask = d.pattern)
    (h1 : w ≠ 0x00E0) (h2 : w ≠ 0x00EE) : lookup w = some d := by
  cases hl : lookup w with
  | none => exact absurd hw ((lookup_eq_none w).mp hl d hd)
  | some e =>
    obtain ⟨he, hwe⟩ := lookup_matches w e hl
    rw [opcodeTable_unique e d w he hd hwe hw h1 h2]

/-- The word of a row decodes to what the row builds: the one lemma to cite for an encoding. -/
theorem decodeWord_of_row (d : Descriptor) (w : Word) (hd : d ∈ opcodeTable)
    (hw : w &&& d.mask = d.pattern) (h1 : w ≠ 0x00E0) (h2 : w ≠ 0x00EE) :
    decodeWord w = some (d.build w) := by
  rw [decodeWord, lookup_of_row d w hd hw h1 h2]; rfl

theorem decodeWord_cls : decodeWord 0x00E0 = some .cls := by decide

theorem decodeWord_ret : decodeWord 0x00EE = some .ret := by decide

theorem decodeWord_eq_none (w : Word) :
    decodeWord w = none ↔ ∀ d ∈ opcodeTable, w &&& d.mask ≠ d.pattern := by
  rw [← lookup_eq_none, decodeWord, Option.map_eq_none_iff]

/-- Whatever is decoded is what a matching row builds. -/
theorem decodeWord_eq_some (w : Word) (i : Instr) (h : decodeWord w = some i) :
    ∃ d ∈ opcodeTable, w &&& d.mask = d.pattern ∧ d.build w = i := by
  rw [decodeWord, Option.map_eq_some_iff] at h
  obtain ⟨d, hd, rfl⟩ := h
  exact ⟨d, (lookup_matches w d hd).1, (lookup_matches w d hd).2, rfl⟩

/-! ### Encoded words as numbers, and their fields -/

/-- Putting a field of `n` bits below a number. -/
theorem append_toNat {m n : Nat} (a : BitVec m) (b : BitVec n) : (a ++ b).toNat = a.toNat * 2 ^ n + b.toNat := by
  rw [BitVec.toNat_append, Nat.shiftLeft_eq, Nat.mul_comm, Nat.two_pow_add_eq_or_of_lt b.isLt]

@[simp] theorem nib_toNat (k : Fin 16) : (nib k).toNat = k.val := rfl

theorem encNNN_toNat (t : BitVec 4) (nnn : Addr12) : (encNNN t nnn).toNat = t.toNat * 4096 + nnn.toNat := by
  simp only [encNNN, append_toNat]
  omega

theorem encXKK_toNat (t : BitVec 4) (x : RegIdx) (kk : Byte) :
    (encXKK t x kk).toNat = t.toNat * 4096 + (x.val * 256 + kk.toNat) := by
  simp only [encXKK, append_toNat, nib_toNat]
  omega

theorem encXYN_toNat (t : BitVec 4) (x y : RegIdx) (n : BitVec 4) :
    (encXYN t x y n).toNat = t.toNat * 4096 + (x.val * 256 + (y.val * 16 + n.toNat)) := by
  simp only [encXYN, append_toNat, nib_toNat]
  omega

theorem fieldNNN_toNat (w : Word) : (fieldNNN w).toNat = w.toNat % 4096 := by
  simp [fieldNNN, BitVec.extractLsb'_toNat]

theorem fieldKK_toNat (w : Word) : (fieldKK w).toNat = w.toNat % 256 := by
  simp [fieldKK, BitVec.extractLsb'_toNat]

theorem fieldX_val (w : Word) : (fieldX w).val = w.toNat / 256 % 16 := by
  simp [fieldX, Nat.shiftRight_eq_div_pow]

theorem fieldY_val (w : Word) : (fieldY w).val = w.toNat / 16 % 16 := by
  simp [fieldY, Nat.shiftRight_eq_div_pow]

theorem fieldN_val (w : Word) : (fieldN w).val = w.toNat % 16 := by
  simp [fieldN]

@[simp] theorem fieldNNN_encNNN (t : BitVec 4) (nnn : Addr12) : fieldNNN (encNNN t nnn) = nnn := by
  apply BitVec.eq_of_toNat_eq
  have := nnn.isLt
  rw [fieldNNN_toNat, encNNN_toNat]
  omega

@[simp] theorem fieldX_encXKK (t : BitVec 4) (x : RegIdx) (kk : Byte) : fieldX (encXKK t x kk) = x := by
  apply Fin.ext
  have := kk.isLt
  have := x.isLt
  rw [fieldX_val, encXKK_toNat]
  omega

@[simp] theorem fieldKK_encXKK (t : BitVec 4) (x : RegIdx) (kk : Byte) : fieldKK (encXKK t x kk) = kk := by
  apply BitVec.eq_of_toNat_eq
  have := kk.isLt
  rw [fieldKK_toNat, encXKK_toNat]
  omega

@[simp] theorem fieldX_encXYN (t : BitVec 4) (x y : RegIdx) (n : BitVec 4) :
    fieldX (encXYN t x y n) = x := by
  apply Fin.ext
  have := x.isLt
  have := y.isLt
  have := n.isLt
  rw [fieldX_val, encXYN_toNat]
  omega

@[simp] theorem fieldY_encXYN (t : BitVec 4) (x y : RegIdx) (n : BitVec 4) :
    fieldY (encXYN t x y n) = y := by
  apply Fin.ext
  have := y.isLt
  have := n.isLt
  rw [fieldY_val, encXYN_toNat]
  omega

@[simp] theorem fieldN_encXYN (t : BitVec 4) (x y : RegIdx) (n : Count) :
    fieldN (encXYN t x y (nib n)) = n := by
  apply Fin.ext
  have := n.isLt
  rw [fieldN_val, encXYN_toNat, nib_toNat]
  omega

/-! ### Fixed bits of encoded words -/

theorem nibble_and_ones (t : BitVec 4) : t &&& 0xF#4 = t := BitVec.and_allOnes

theorem byte_and_ones (b : BitVec 8) : b &&& 0xFF#8 = b := BitVec.and_allOnes

theorem encNNN_fixed (t : BitVec 4) (nnn : Addr12) : encNNN t nnn &&& 0xF000 = encNNN t 0 := by
  have hm : (0xF000 : Word) = (0xF#4) ++ (0#12) := by decide
  rw [encNNN, hm, BitVec.and_append, nibble_and_ones, BitVec.and_zero]
  rfl

theorem encXKK_fixed (t : BitVec 4) (x : RegIdx) (kk : Byte) : encXKK t x kk &&& 0xF000 = encNNN t 0 :=
  encNNN_fixed t _

theorem encXYN_fixed (t : BitVec 4) (x y : RegIdx) (n : BitVec 4) :
    encXYN t x y n &&& 0xF000 = encNNN t 0 :=
  encNNN_fixed t _

theorem encXYN_fixed_low (t : BitVec 4) (x y : RegIdx) (n : BitVec 4) :
    encXYN t x y n &&& 0xF00F = encXYN t 0 0 n := by
  have hm : (0xF00F : Word) = (0xF#4) ++ ((0#4) ++ ((0#4) ++ (0xF#4) : BitVec 8) : BitVec 12) := by decide
  rw [encXYN, hm, BitVec.and_append, BitVec.and_append, BitVec.and_append, nibble_and_ones, nibble_and_ones,
    BitVec.and_zero, BitVec.and_zero]
  rfl

theorem encXKK_fixed_low (t : BitVec 4) (x : RegIdx) (kk : Byte) :
    encXKK t x kk &&& 0xF0FF = encXKK t 0 kk := by
  have hm : (0xF0FF : Word) = (0xF#4) ++ ((0#4) ++ (0xFF#8) : BitVec 12) := by decide
  rw [encXKK, hm, BitVec.and_append, BitVec.and_append, nibble_and_ones, byte_and_ones, BitVec.and_zero]
  rfl

/-! ### Words from their fields -/

theorem word_eq_encNNN (w : Word) : w = encNNN (w.extractLsb' 12 4) (fieldNNN w) := by
  apply BitVec.eq_of_toNat_eq
  have := w.isLt
  rw [encNNN_toNat, fieldNNN_toNat, BitVec.extractLsb'_toNat, Nat.shiftRight_eq_div_pow]
  omega

theorem word_eq_encXKK (w : Word) : w = encXKK (w.extractLsb' 12 4) (fieldX w) (fieldKK w) := by
  apply BitVec.eq_of_toNat_eq
  have := w.isLt
  rw [encXKK_toNat, fieldX_val, fieldKK_toNat, BitVec.extractLsb'_toNat, Nat.shiftRight_eq_div_pow]
  omega

theorem word_eq_encXYN (w : Word) :
    w = encXYN (w.extractLsb' 12 4) (fieldX w) (fieldY w) (nib (fieldN w)) := by
  apply BitVec.eq_of_toNat_eq
  have := w.isLt
  rw [encXYN_toNat, fieldX_val, fieldY_val, nib_toNat, fieldN_val, BitVec.extractLsb'_toNat,
    Nat.shiftRight_eq_div_pow]
  omega

/-! ### Masked words as numbers -/

theorem topNibble_toNat (w : Word) : (w.extractLsb' 12 4).toNat = w.toNat / 4096 := by
  have := w.isLt
  rw [BitVec.extractLsb'_toNat, Nat.shiftRight_eq_div_pow]
  omega

theorem and_F000_toNat (w : Word) : (w &&& 0xF000).toNat = w.toNat / 4096 * 4096 := by
  have h := encNNN_fixed (w.extractLsb' 12 4) (fieldNNN w)
  rw [← word_eq_encNNN] at h
  rw [h, encNNN_toNat, topNibble_toNat]
  simp

theorem and_F00F_toNat (w : Word) : (w &&& 0xF00F).toNat = w.toNat / 4096 * 4096 + w.toNat % 16 := by
  have h := encXYN_fixed_low (w.extractLsb' 12 4) (fieldX w) (fieldY w) (nib (fieldN w))
  rw [← word_eq_encXYN] at h
  rw [h, encXYN_toNat, topNibble_toNat, nib_toNat, fieldN_val]
  simp

theorem and_F0FF_toNat (w : Word) : (w &&& 0xF0FF).toNat = w.toNat / 4096 * 4096 + w.toNat % 256 := by
  have h := encXKK_fixed_low (w.extractLsb' 12 4) (fieldX w) (fieldKK w)
  rw [← word_eq_encXKK] at h
  rw [h, encXKK_toNat, topNibble_toNat, fieldKK_toNat]
  simp

theorem and_FFFF (w : Word) : w &&& 0xFFFF = w := BitVec.and_allOnes

end Sys2Proof
end

