-- ==== Sys2Proof/Laws/Memory.lean ====
section
/-! SUPPORT. The laws of the memory operations: a byte written is read back and no other byte changes (from any
list of cells, canonical or not), and every operation keeps the canonical form. -/

namespace Sys2Proof.Machine

/-! ### Reads after writes -/

theorem memRead_memErase_self (m : Memory) (a : Nat) : memRead (memErase m a) a = resetByte a := by
  induction m with
  | nil => rfl
  | cons c m ih =>
    obtain ⟨b, v⟩ := c
    by_cases h : b = a
    · simpa [memErase, h] using ih
    · simpa [memErase, h, memRead] using ih

theorem memRead_memErase_ne (m : Memory) (a j : Nat) (h : a ≠ j) :
    memRead (memErase m a) j = memRead m j := by
  induction m with
  | nil => rfl
  | cons c m ih =>
    obtain ⟨b, v⟩ := c
    by_cases hb : b = a
    · have : ¬ b = j := fun e => h (hb ▸ e)
      simpa [memErase, hb, memRead, h] using ih
    · simp only [memErase] at ih
      simp [memErase, hb, memRead, ih]

theorem memRead_memInsert_ne (m : Memory) (a j : Nat) (v : Byte) (h : a ≠ j) :
    memRead (memInsert m a v) j = memRead m j := by
  induction m with
  | nil => simp [memInsert, memRead, h]
  | cons c m ih =>
    obtain ⟨b, w⟩ := c
    by_cases hb : a < b
    · simp [memInsert, hb, memRead, h]
    · simp [memInsert, hb, memRead, ih]

theorem memRead_memInsert_self (m : Memory) (a : Nat) (v : Byte) (h : ∀ c ∈ m, c.1 ≠ a) :
    memRead (memInsert m a v) a = v := by
  induction m with
  | nil => simp [memInsert, memRead]
  | cons c m ih =>
    obtain ⟨b, w⟩ := c
    have hb : b ≠ a := h (b, w) (by simp)
    have ih' := ih (fun c hc => h c (by simp [hc]))
    by_cases hlt : a < b
    · simp [memInsert, hlt, memRead]
    · simp [memInsert, hlt, memRead, hb, ih']

theorem memErase_ne (m : Memory) (a : Nat) : ∀ c ∈ memErase m a, c.1 ≠ a := by
  intro c hc
  simpa [memErase] using (List.mem_filter.mp hc).2

/-- The whole of what a store does to later reads. -/
theorem memRead_memWrite (m : Memory) (a j : Nat) (v : Byte) :
    memRead (memWrite m a v) j = if a = j then v else memRead m j := by
  unfold memWrite
  by_cases h : a = j
  · subst h
    split
    · next hv => simp [memRead_memErase_self, hv]
    · simp [memRead_memInsert_self _ _ _ (memErase_ne m a)]
  · split
    · exact memRead_memErase_ne m a j h
    · rw [memRead_memInsert_ne _ _ _ _ h, memRead_memErase_ne _ _ _ h]

/-- The whole of what a store of bytes does to later reads. -/
theorem memRead_storeBytes (vs : List Byte) : ∀ (m : Memory) (a j : Nat),
    memRead (storeBytes m a vs) j = if a ≤ j then vs.getD (j - a) (memRead m j) else memRead m j := by
  induction vs with
  | nil => intro m a j; simp [storeBytes]
  | cons v vs ih =>
    intro m a j
    rw [storeBytes, ih, memRead_memWrite]
    by_cases h1 : a + 1 ≤ j
    · have h2 : a ≠ j := by omega
      have h3 : a ≤ j := by omega
      have h4 : j - a = (j - (a + 1)) + 1 := by omega
      simp [h1, h2, h3, h4]
    · by_cases h2 : a = j
      · subst h2; simp
      · have h3 : ¬ a ≤ j := by omega
        simp [h1, h2, h3]

theorem memRead_storeBytes_at (m : Memory) (a k : Nat) (vs : List Byte) (h : k < vs.length) :
    memRead (storeBytes m a vs) (a + k) = vs[k] := by
  simp [memRead_storeBytes, h]

theorem memRead_storeBytes_outside (m : Memory) (a j : Nat) (vs : List Byte)
    (h : j < a ∨ a + vs.length ≤ j) : memRead (storeBytes m a vs) j = memRead m j := by
  rw [memRead_storeBytes]
  split
  · have : vs.length ≤ j - a := by omega
    exact List.getD_eq_default _ _ this
  · rfl

@[simp] theorem loadBytes_length (m : Memory) (a n : Nat) : (loadBytes m a n).length = n := by
  simp [loadBytes]

theorem loadBytes_getElem (m : Memory) (a n k : Nat) (h : k < (loadBytes m a n).length) :
    (loadBytes m a n)[k] = memRead m (a + k) := by
  simp [loadBytes]

/-! ### The canonical form is kept -/

theorem wf_nil : Memory.wf [] := by decide

theorem wf_memErase (m : Memory) (a : Nat) (h : Memory.wf m) : Memory.wf (memErase m a) :=
  ⟨h.1.filter _, fun c hc => h.2 c (List.mem_filter.mp hc).1⟩

theorem mem_memInsert (m : Memory) (a : Nat) (v : Byte) (c : Host.Cell) :
    c ∈ memInsert m a v ↔ c = (a, v) ∨ c ∈ m := by
  induction m with
  | nil => simp [memInsert]
  | cons d m ih =>
    obtain ⟨b, w⟩ := d
    by_cases h : a < b
    · simp [memInsert, h]
    · simp only [memInsert, h, if_false, List.mem_cons, ih]
      tauto

theorem pairwise_memInsert (m : Memory) (a : Nat) (v : Byte)
    (h : m.Pairwise (fun c d => c.1 < d.1)) (hne : ∀ c ∈ m, c.1 ≠ a) :
    (memInsert m a v).Pairwise (fun c d => c.1 < d.1) := by
  induction m with
  | nil => simp [memInsert]
  | cons d m ih =>
    obtain ⟨b, w⟩ := d
    rw [List.pairwise_cons] at h
    have hb : b ≠ a := hne (b, w) (by simp)
    by_cases hlt : a < b
    · simp only [memInsert, hlt, if_true, List.pairwise_cons]
      refine ⟨?_, h.1, h.2⟩
      intro c hc
      rcases List.mem_cons.mp hc with rfl | hc
      · exact hlt
      · exact Nat.lt_trans hlt (h.1 c hc)
    · simp only [memInsert, hlt, if_false, List.pairwise_cons]
      refine ⟨?_, ih h.2 (fun c hc => hne c (by simp [hc]))⟩
      intro c hc
      rcases (mem_memInsert m a v c).mp hc with rfl | hc
      · show b < a
        omega
      · exact h.1 c hc

theorem wf_memWrite (m : Memory) (a : Nat) (v : Byte) (h : Memory.wf m) (ha : a < 0x1000) :
    Memory.wf (memWrite m a v) := by
  have he := wf_memErase m a h
  unfold memWrite
  split
  · exact he
  · next hv =>
    refine ⟨pairwise_memInsert _ _ _ he.1 (memErase_ne m a), ?_⟩
    intro c hc
    rcases (mem_memInsert _ _ _ _).mp hc with rfl | hc
    · exact ⟨ha, hv⟩
    · exact he.2 c hc

theorem wf_storeBytes (vs : List Byte) : ∀ (m : Memory) (a : Nat), Memory.wf m →
    a + vs.length ≤ 0x1000 → Memory.wf (storeBytes m a vs) := by
  induction vs with
  | nil => intro m a h _; exact h
  | cons v vs ih =>
    intro m a h hl
    simp only [List.length_cons] at hl
    exact ih _ _ (wf_memWrite m a v h (by omega)) (by omega)

/-- Memory right after reset lists nothing. -/
theorem reset_mem_wf : Memory.wf State.reset.mem := wf_nil

end Sys2Proof.Machine
end

