-- ==== Sys2Proof/Laws/State.lean ====
section
/-! SUPPORT. What each update of State does to each field, and to the reads of one register and one byte of
memory: true by definition, so that no later proof unfolds a record update. -/

namespace Sys2Proof.Machine

variable (s : State)

/-! ### `setV` -/

@[simp] theorem State.setV_V (i : RegIdx) (v : Byte) : (s.setV i v).V = s.V.set i.val v := rfl
@[simp] theorem State.setV_I (i : RegIdx) (v : Byte) : (s.setV i v).I = s.I := rfl
@[simp] theorem State.setV_pc (i : RegIdx) (v : Byte) : (s.setV i v).pc = s.pc := rfl
@[simp] theorem State.setV_sp (i : RegIdx) (v : Byte) : (s.setV i v).sp = s.sp := rfl
@[simp] theorem State.setV_stack (i : RegIdx) (v : Byte) : (s.setV i v).stack = s.stack := rfl
@[simp] theorem State.setV_DT (i : RegIdx) (v : Byte) : (s.setV i v).DT = s.DT := rfl
@[simp] theorem State.setV_ST (i : RegIdx) (v : Byte) : (s.setV i v).ST = s.ST := rfl
@[simp] theorem State.setV_mem (i : RegIdx) (v : Byte) : (s.setV i v).mem = s.mem := rfl
@[simp] theorem State.setV_disp (i : RegIdx) (v : Byte) : (s.setV i v).disp = s.disp := rfl
@[simp] theorem State.setV_keys (i : RegIdx) (v : Byte) : (s.setV i v).keys = s.keys := rfl
@[simp] theorem State.setV_lastKey (i : RegIdx) (v : Byte) : (s.setV i v).lastKey = s.lastKey := rfl
@[simp] theorem State.setV_rndCount (i : RegIdx) (v : Byte) : (s.setV i v).rndCount = s.rndCount := rfl
@[simp] theorem State.setV_byteAt (i : RegIdx) (v : Byte) (j : Nat) : (s.setV i v).byteAt j = s.byteAt j := rfl

/-! ### `setI` -/

@[simp] theorem State.setI_V (a : Word) : (s.setI a).V = s.V := rfl
@[simp] theorem State.setI_I (a : Word) : (s.setI a).I = a := rfl
@[simp] theorem State.setI_pc (a : Word) : (s.setI a).pc = s.pc := rfl
@[simp] theorem State.setI_sp (a : Word) : (s.setI a).sp = s.sp := rfl
@[simp] theorem State.setI_stack (a : Word) : (s.setI a).stack = s.stack := rfl
@[simp] theorem State.setI_DT (a : Word) : (s.setI a).DT = s.DT := rfl
@[simp] theorem State.setI_ST (a : Word) : (s.setI a).ST = s.ST := rfl
@[simp] theorem State.setI_mem (a : Word) : (s.setI a).mem = s.mem := rfl
@[simp] theorem State.setI_disp (a : Word) : (s.setI a).disp = s.disp := rfl
@[simp] theorem State.setI_keys (a : Word) : (s.setI a).keys = s.keys := rfl
@[simp] theorem State.setI_lastKey (a : Word) : (s.setI a).lastKey = s.lastKey := rfl
@[simp] theorem State.setI_rndCount (a : Word) : (s.setI a).rndCount = s.rndCount := rfl
@[simp] theorem State.setI_getV (a : Word) (j : RegIdx) : (s.setI a).getV j = s.getV j := rfl
@[simp] theorem State.setI_byteAt (a : Word) (j : Nat) : (s.setI a).byteAt j = s.byteAt j := rfl

/-! ### `setPc` -/

@[simp] theorem State.setPc_V (a : Word) : (s.setPc a).V = s.V := rfl
@[simp] theorem State.setPc_I (a : Word) : (s.setPc a).I = s.I := rfl
@[simp] theorem State.setPc_pc (a : Word) : (s.setPc a).pc = a := rfl
@[simp] theorem State.setPc_sp (a : Word) : (s.setPc a).sp = s.sp := rfl
@[simp] theorem State.setPc_stack (a : Word) : (s.setPc a).stack = s.stack := rfl
@[simp] theorem State.setPc_DT (a : Word) : (s.setPc a).DT = s.DT := rfl
@[simp] theorem State.setPc_ST (a : Word) : (s.setPc a).ST = s.ST := rfl
@[simp] theorem State.setPc_mem (a : Word) : (s.setPc a).mem = s.mem := rfl
@[simp] theorem State.setPc_disp (a : Word) : (s.setPc a).disp = s.disp := rfl
@[simp] theorem State.setPc_keys (a : Word) : (s.setPc a).keys = s.keys := rfl
@[simp] theorem State.setPc_lastKey (a : Word) : (s.setPc a).lastKey = s.lastKey := rfl
@[simp] theorem State.setPc_rndCount (a : Word) : (s.setPc a).rndCount = s.rndCount := rfl
@[simp] theorem State.setPc_getV (a : Word) (j : RegIdx) : (s.setPc a).getV j = s.getV j := rfl
@[simp] theorem State.setPc_byteAt (a : Word) (j : Nat) : (s.setPc a).byteAt j = s.byteAt j := rfl

/-! ### `setSp` -/

@[simp] theorem State.setSp_V (p : Sp) : (s.setSp p).V = s.V := rfl
@[simp] theorem State.setSp_I (p : Sp) : (s.setSp p).I = s.I := rfl
@[simp] theorem State.setSp_pc (p : Sp) : (s.setSp p).pc = s.pc := rfl
@[simp] theorem State.setSp_sp (p : Sp) : (s.setSp p).sp = p := rfl
@[simp] theorem State.setSp_stack (p : Sp) : (s.setSp p).stack = s.stack := rfl
@[simp] theorem State.setSp_DT (p : Sp) : (s.setSp p).DT = s.DT := rfl
@[simp] theorem State.setSp_ST (p : Sp) : (s.setSp p).ST = s.ST := rfl
@[simp] theorem State.setSp_mem (p : Sp) : (s.setSp p).mem = s.mem := rfl
@[simp] theorem State.setSp_disp (p : Sp) : (s.setSp p).disp = s.disp := rfl
@[simp] theorem State.setSp_keys (p : Sp) : (s.setSp p).keys = s.keys := rfl
@[simp] theorem State.setSp_lastKey (p : Sp) : (s.setSp p).lastKey = s.lastKey := rfl
@[simp] theorem State.setSp_rndCount (p : Sp) : (s.setSp p).rndCount = s.rndCount := rfl
@[simp] theorem State.setSp_getV (p : Sp) (j : RegIdx) : (s.setSp p).getV j = s.getV j := rfl
@[simp] theorem State.setSp_byteAt (p : Sp) (j : Nat) : (s.setSp p).byteAt j = s.byteAt j := rfl

/-! ### `setSlot` -/

@[simp] theorem State.setSlot_V (k : Fin 16) (w : Word) : (s.setSlot k w).V = s.V := rfl
@[simp] theorem State.setSlot_I (k : Fin 16) (w : Word) : (s.setSlot k w).I = s.I := rfl
@[simp] theorem State.setSlot_pc (k : Fin 16) (w : Word) : (s.setSlot k w).pc = s.pc := rfl
@[simp] theorem State.setSlot_sp (k : Fin 16) (w : Word) : (s.setSlot k w).sp = s.sp := rfl
@[simp] theorem State.setSlot_stack (k : Fin 16) (w : Word) : (s.setSlot k w).stack = s.stack.set k.val w := rfl
@[simp] theorem State.setSlot_DT (k : Fin 16) (w : Word) : (s.setSlot k w).DT = s.DT := rfl
@[simp] theorem State.setSlot_ST (k : Fin 16) (w : Word) : (s.setSlot k w).ST = s.ST := rfl
@[simp] theorem State.setSlot_mem (k : Fin 16) (w : Word) : (s.setSlot k w).mem = s.mem := rfl
@[simp] theorem State.setSlot_disp (k : Fin 16) (w : Word) : (s.setSlot k w).disp = s.disp := rfl
@[simp] theorem State.setSlot_keys (k : Fin 16) (w : Word) : (s.setSlot k w).keys = s.keys := rfl
@[simp] theorem State.setSlot_lastKey (k : Fin 16) (w : Word) : (s.setSlot k w).lastKey = s.lastKey := rfl
@[simp] theorem State.setSlot_rndCount (k : Fin 16) (w : Word) : (s.setSlot k w).rndCount = s.rndCount := rfl
@[simp] theorem State.setSlot_getV (k : Fin 16) (w : Word) (j : RegIdx) : (s.setSlot k w).getV j = s.getV j := rfl
@[simp] theorem State.setSlot_byteAt (k : Fin 16) (w : Word) (j : Nat) : (s.setSlot k w).byteAt j = s.byteAt j := rfl

/-! ### `setDT` -/

@[simp] theorem State.setDT_V (v : Byte) : (s.setDT v).V = s.V := rfl
@[simp] theorem State.setDT_I (v : Byte) : (s.setDT v).I = s.I := rfl
@[simp] theorem State.setDT_pc (v : Byte) : (s.setDT v).pc = s.pc := rfl
@[simp] theorem State.setDT_sp (v : Byte) : (s.setDT v).sp = s.sp := rfl
@[simp] theorem State.setDT_stack (v : Byte) : (s.setDT v).stack = s.stack := rfl
@[simp] theorem State.setDT_DT (v : Byte) : (s.setDT v).DT = v := rfl
@[simp] theorem State.setDT_ST (v : Byte) : (s.setDT v).ST = s.ST := rfl
@[simp] theorem State.setDT_mem (v : Byte) : (s.setDT v).mem = s.mem := rfl
@[simp] theorem State.setDT_disp (v : Byte) : (s.setDT v).disp = s.disp := rfl
@[simp] theorem State.setDT_keys (v : Byte) : (s.setDT v).keys = s.keys := rfl
@[simp] theorem State.setDT_lastKey (v : Byte) : (s.setDT v).lastKey = s.lastKey := rfl
@[simp] theorem State.setDT_rndCount (v : Byte) : (s.setDT v).rndCount = s.rndCount := rfl
@[simp] theorem State.setDT_getV (v : Byte) (j : RegIdx) : (s.setDT v).getV j = s.getV j := rfl
@[simp] theorem State.setDT_byteAt (v : Byte) (j : Nat) : (s.setDT v).byteAt j = s.byteAt j := rfl

/-! ### `setST` -/

@[simp] theorem State.setST_V (v : Byte) : (s.setST v).V = s.V := rfl
@[simp] theorem State.setST_I (v : Byte) : (s.setST v).I = s.I := rfl
@[simp] theorem State.setST_pc (v : Byte) : (s.setST v).pc = s.pc := rfl
@[simp] theorem State.setST_sp (v : Byte) : (s.setST v).sp = s.sp := rfl
@[simp] theorem State.setST_stack (v : Byte) : (s.setST v).stack = s.stack := rfl
@[simp] theorem State.setST_DT (v : Byte) : (s.setST v).DT = s.DT := rfl
@[simp] theorem State.setST_ST (v : Byte) : (s.setST v).ST = v := rfl
@[simp] theorem State.setST_mem (v : Byte) : (s.setST v).mem = s.mem := rfl
@[simp] theorem State.setST_disp (v : Byte) : (s.setST v).disp = s.disp := rfl
@[simp] theorem State.setST_keys (v : Byte) : (s.setST v).keys = s.keys := rfl
@[simp] theorem State.setST_lastKey (v : Byte) : (s.setST v).lastKey = s.lastKey := rfl
@[simp] theorem State.setST_rndCount (v : Byte) : (s.setST v).rndCount = s.rndCount := rfl
@[simp] theorem State.setST_getV (v : Byte) (j : RegIdx) : (s.setST v).getV j = s.getV j := rfl
@[simp] theorem State.setST_byteAt (v : Byte) (j : Nat) : (s.setST v).byteAt j = s.byteAt j := rfl

/-! ### `setMem` -/

@[simp] theorem State.setMem_V (m : Memory) : (s.setMem m).V = s.V := rfl
@[simp] theorem State.setMem_I (m : Memory) : (s.setMem m).I = s.I := rfl
@[simp] theorem State.setMem_pc (m : Memory) : (s.setMem m).pc = s.pc := rfl
@[simp] theorem State.setMem_sp (m : Memory) : (s.setMem m).sp = s.sp := rfl
@[simp] theorem State.setMem_stack (m : Memory) : (s.setMem m).stack = s.stack := rfl
@[simp] theorem State.setMem_DT (m : Memory) : (s.setMem m).DT = s.DT := rfl
@[simp] theorem State.setMem_ST (m : Memory) : (s.setMem m).ST = s.ST := rfl
@[simp] theorem State.setMem_mem (m : Memory) : (s.setMem m).mem = m := rfl
@[simp] theorem State.setMem_disp (m : Memory) : (s.setMem m).disp = s.disp := rfl
@[simp] theorem State.setMem_keys (m : Memory) : (s.setMem m).keys = s.keys := rfl
@[simp] theorem State.setMem_lastKey (m : Memory) : (s.setMem m).lastKey = s.lastKey := rfl
@[simp] theorem State.setMem_rndCount (m : Memory) : (s.setMem m).rndCount = s.rndCount := rfl
@[simp] theorem State.setMem_getV (m : Memory) (j : RegIdx) : (s.setMem m).getV j = s.getV j := rfl
@[simp] theorem State.setMem_byteAt (m : Memory) (j : Nat) : (s.setMem m).byteAt j = memRead m j := rfl

/-! ### `setDisp` -/

@[simp] theorem State.setDisp_V (d : Display) : (s.setDisp d).V = s.V := rfl
@[simp] theorem State.setDisp_I (d : Display) : (s.setDisp d).I = s.I := rfl
@[simp] theorem State.setDisp_pc (d : Display) : (s.setDisp d).pc = s.pc := rfl
@[simp] theorem State.setDisp_sp (d : Display) : (s.setDisp d).sp = s.sp := rfl
@[simp] theorem State.setDisp_stack (d : Display) : (s.setDisp d).stack = s.stack := rfl
@[simp] theorem State.setDisp_DT (d : Display) : (s.setDisp d).DT = s.DT := rfl
@[simp] theorem State.setDisp_ST (d : Display) : (s.setDisp d).ST = s.ST := rfl
@[simp] theorem State.setDisp_mem (d : Display) : (s.setDisp d).mem = s.mem := rfl
@[simp] theorem State.setDisp_disp (d : Display) : (s.setDisp d).disp = d := rfl
@[simp] theorem State.setDisp_keys (d : Display) : (s.setDisp d).keys = s.keys := rfl
@[simp] theorem State.setDisp_lastKey (d : Display) : (s.setDisp d).lastKey = s.lastKey := rfl
@[simp] theorem State.setDisp_rndCount (d : Display) : (s.setDisp d).rndCount = s.rndCount := rfl
@[simp] theorem State.setDisp_getV (d : Display) (j : RegIdx) : (s.setDisp d).getV j = s.getV j := rfl
@[simp] theorem State.setDisp_byteAt (d : Display) (j : Nat) : (s.setDisp d).byteAt j = s.byteAt j := rfl

/-! ### `setKeys` -/

@[simp] theorem State.setKeys_V (m : Word) : (s.setKeys m).V = s.V := rfl
@[simp] theorem State.setKeys_I (m : Word) : (s.setKeys m).I = s.I := rfl
@[simp] theorem State.setKeys_pc (m : Word) : (s.setKeys m).pc = s.pc := rfl
@[simp] theorem State.setKeys_sp (m : Word) : (s.setKeys m).sp = s.sp := rfl
@[simp] theorem State.setKeys_stack (m : Word) : (s.setKeys m).stack = s.stack := rfl
@[simp] theorem State.setKeys_DT (m : Word) : (s.setKeys m).DT = s.DT := rfl
@[simp] theorem State.setKeys_ST (m : Word) : (s.setKeys m).ST = s.ST := rfl
@[simp] theorem State.setKeys_mem (m : Word) : (s.setKeys m).mem = s.mem := rfl
@[simp] theorem State.setKeys_disp (m : Word) : (s.setKeys m).disp = s.disp := rfl
@[simp] theorem State.setKeys_keys (m : Word) : (s.setKeys m).keys = m := rfl
@[simp] theorem State.setKeys_lastKey (m : Word) : (s.setKeys m).lastKey = s.lastKey := rfl
@[simp] theorem State.setKeys_rndCount (m : Word) : (s.setKeys m).rndCount = s.rndCount := rfl
@[simp] theorem State.setKeys_getV (m : Word) (j : RegIdx) : (s.setKeys m).getV j = s.getV j := rfl
@[simp] theorem State.setKeys_byteAt (m : Word) (j : Nat) : (s.setKeys m).byteAt j = s.byteAt j := rfl

/-! ### `setLastKey` -/

@[simp] theorem State.setLastKey_V (k : KeyIdx) : (s.setLastKey k).V = s.V := rfl
@[simp] theorem State.setLastKey_I (k : KeyIdx) : (s.setLastKey k).I = s.I := rfl
@[simp] theorem State.setLastKey_pc (k : KeyIdx) : (s.setLastKey k).pc = s.pc := rfl
@[simp] theorem State.setLastKey_sp (k : KeyIdx) : (s.setLastKey k).sp = s.sp := rfl
@[simp] theorem State.setLastKey_stack (k : KeyIdx) : (s.setLastKey k).stack = s.stack := rfl
@[simp] theorem State.setLastKey_DT (k : KeyIdx) : (s.setLastKey k).DT = s.DT := rfl
@[simp] theorem State.setLastKey_ST (k : KeyIdx) : (s.setLastKey k).ST = s.ST := rfl
@[simp] theorem State.setLastKey_mem (k : KeyIdx) : (s.setLastKey k).mem = s.mem := rfl
@[simp] theorem State.setLastKey_disp (k : KeyIdx) : (s.setLastKey k).disp = s.disp := rfl
@[simp] theorem State.setLastKey_keys (k : KeyIdx) : (s.setLastKey k).keys = s.keys := rfl
@[simp] theorem State.setLastKey_lastKey (k : KeyIdx) : (s.setLastKey k).lastKey = k := rfl
@[simp] theorem State.setLastKey_rndCount (k : KeyIdx) : (s.setLastKey k).rndCount = s.rndCount := rfl
@[simp] theorem State.setLastKey_getV (k : KeyIdx) (j : RegIdx) : (s.setLastKey k).getV j = s.getV j := rfl
@[simp] theorem State.setLastKey_byteAt (k : KeyIdx) (j : Nat) : (s.setLastKey k).byteAt j = s.byteAt j := rfl

/-! ### `countDraw` -/

@[simp] theorem State.countDraw_V : (s.countDraw).V = s.V := rfl
@[simp] theorem State.countDraw_I : (s.countDraw).I = s.I := rfl
@[simp] theorem State.countDraw_pc : (s.countDraw).pc = s.pc := rfl
@[simp] theorem State.countDraw_sp : (s.countDraw).sp = s.sp := rfl
@[simp] theorem State.countDraw_stack : (s.countDraw).stack = s.stack := rfl
@[simp] theorem State.countDraw_DT : (s.countDraw).DT = s.DT := rfl
@[simp] theorem State.countDraw_ST : (s.countDraw).ST = s.ST := rfl
@[simp] theorem State.countDraw_mem : (s.countDraw).mem = s.mem := rfl
@[simp] theorem State.countDraw_disp : (s.countDraw).disp = s.disp := rfl
@[simp] theorem State.countDraw_keys : (s.countDraw).keys = s.keys := rfl
@[simp] theorem State.countDraw_lastKey : (s.countDraw).lastKey = s.lastKey := rfl
@[simp] theorem State.countDraw_rndCount : (s.countDraw).rndCount = s.rndCount + 1 := rfl
@[simp] theorem State.countDraw_getV (j : RegIdx) : (s.countDraw).getV j = s.getV j := rfl
@[simp] theorem State.countDraw_byteAt (j : Nat) : (s.countDraw).byteAt j = s.byteAt j := rfl

/-! ### Register writes read back (R11) -/

theorem State.setV_getV (i : RegIdx) (v : Byte) (j : RegIdx) :
    (s.setV i v).getV j = if i = j then v else s.getV j := by
  simp only [State.getV, State.setV, Vector.getElem_set, Fin.ext_iff]

@[simp] theorem State.setV_getV_self (i : RegIdx) (v : Byte) : (s.setV i v).getV i = v := by
  simp [State.setV_getV]

theorem State.setV_getV_ne (i : RegIdx) (v : Byte) (j : RegIdx) (h : i ≠ j) :
    (s.setV i v).getV j = s.getV j := by
  simp [State.setV_getV, h]

theorem State.setSlot_get (k : Fin 16) (w : Word) (j : Fin 16) :
    (s.setSlot k w).stack[j.val] = if k = j then w else s.stack[j.val] := by
  simp only [State.setSlot_stack, Vector.getElem_set, Fin.ext_iff]

/-! ### The derived updates, in terms of the single ones -/

@[simp] theorem State.advance_eq : s.advance = s.setPc (s.pc + 2) := rfl

@[simp] theorem State.skipIf_eq (c : Bool) :
    s.skipIf c = s.setPc (if c then s.pc + 4 else s.pc + 2) := rfl

@[simp] theorem State.setFlag_eq (c : Bool) : s.setFlag c = s.setV vf (flagByte c) := rfl

/-! ### Loading registers from memory (R145) -/

theorem State.loadRegs_getV (x : RegIdx) (base : Nat) (j : RegIdx) :
    (s.loadRegs x base).getV j = if j.val ≤ x.val then s.byteAt (base + j.val) else s.getV j := by
  simp [State.loadRegs, State.getV, Vector.getElem_ofFn]

@[simp] theorem State.loadRegs_I (x : RegIdx) (base : Nat) : (s.loadRegs x base).I = s.I := rfl
@[simp] theorem State.loadRegs_pc (x : RegIdx) (base : Nat) : (s.loadRegs x base).pc = s.pc := rfl
@[simp] theorem State.loadRegs_sp (x : RegIdx) (base : Nat) : (s.loadRegs x base).sp = s.sp := rfl
@[simp] theorem State.loadRegs_stack (x : RegIdx) (base : Nat) : (s.loadRegs x base).stack = s.stack := rfl
@[simp] theorem State.loadRegs_DT (x : RegIdx) (base : Nat) : (s.loadRegs x base).DT = s.DT := rfl
@[simp] theorem State.loadRegs_ST (x : RegIdx) (base : Nat) : (s.loadRegs x base).ST = s.ST := rfl
@[simp] theorem State.loadRegs_mem (x : RegIdx) (base : Nat) : (s.loadRegs x base).mem = s.mem := rfl
@[simp] theorem State.loadRegs_disp (x : RegIdx) (base : Nat) : (s.loadRegs x base).disp = s.disp := rfl
@[simp] theorem State.loadRegs_keys (x : RegIdx) (base : Nat) : (s.loadRegs x base).keys = s.keys := rfl
@[simp] theorem State.loadRegs_lastKey (x : RegIdx) (base : Nat) : (s.loadRegs x base).lastKey = s.lastKey := rfl
@[simp] theorem State.loadRegs_rndCount (x : RegIdx) (base : Nat) : (s.loadRegs x base).rndCount = s.rndCount := rfl
@[simp] theorem State.loadRegs_byteAt (x : RegIdx) (base : Nat) (j : Nat) :
    (s.loadRegs x base).byteAt j = s.byteAt j := rfl

end Sys2Proof.Machine
end

