-- ==== Sys2Proof/Laws/Ops.lean ====
section
/-! SUPPORT. One lemma for each shared operation, saying once all it can do; the meanings' proofs cite these. -/

namespace Sys2Proof.Machine

/-! ### Raising, range and domain checks -/

theorem raise_eq (r : Fault) : raise r = .fault r := rfl

/-- The check of R44, against its statement on plain numbers. -/
theorem outOfRange_eq_none (base n : Nat) : outOfRange base n = none ↔ n = 0 ∨ base + n ≤ 0x1000 := by
  unfold outOfRange
  split <;> simp <;> omega

theorem outOfRange_eq_some (base n addr : Nat) :
    outOfRange base n = some addr ↔ 0 < n ∧ 0x1000 < base + n ∧ addr = max base 0x1000 := by
  unfold outOfRange
  split <;> simp <;> omega

theorem withRange_inside (base n : Nat) (e : Result) (h : n = 0 ∨ base + n ≤ 0x1000) :
    withRange base n e = e := by
  simp [withRange, (outOfRange_eq_none base n).mpr h]

theorem withRange_outside (base n : Nat) (e : Result) (h0 : 0 < n) (h : 0x1000 < base + n) :
    withRange base n e = .fault (.memoryOutOfRange (max base 0x1000)) := by
  simp [withRange, (outOfRange_eq_some base n _).mpr ⟨h0, h, rfl⟩, raise]

/-- If a range-checked effect answers a next state, the range is inside memory and the effect answered it. -/
theorem withRange_eq_next (base n : Nat) (e : Result) (t : State) :
    withRange base n e = .next t ↔ (n = 0 ∨ base + n ≤ 0x1000) ∧ e = .next t := by
  by_cases h : n = 0 ∨ base + n ≤ 0x1000
  · simp [withRange_inside _ _ _ h, h]
  · rw [withRange_outside _ _ _ (by omega) (by omega)]
    simp [h]

theorem withIndex_inside (v : Byte) (e : Fin 16 → Result) (h : v.toNat < 16) :
    withIndex v e = e ⟨v.toNat, h⟩ := by
  simp [withIndex, h]

theorem withIndex_outside (v : Byte) (e : Fin 16 → Result) (h : 15 < v.toNat) :
    withIndex v e = .fault (.operandOutOfDomain v) := by
  simp [withIndex, Nat.not_lt.mpr h, raise]

/-- If an index-checked effect answers a next state, the value is an index and the effect answered it. -/
theorem withIndex_eq_next (v : Byte) (e : Fin 16 → Result) (t : State) :
    withIndex v e = .next t ↔ ∃ h : v.toNat < 16, e ⟨v.toNat, h⟩ = .next t := by
  by_cases h : v.toNat < 16
  · simp [withIndex_inside _ _ h, h]
  · rw [withIndex_outside _ _ (by omega)]
    simp [h]

/-! ### Operands and flags -/

theorem addrOperand_toNat (nnn : Addr12) : (addrOperand nnn).toNat = nnn.toNat := by
  have := nnn.isLt
  simp only [addrOperand, BitVec.truncate_eq_setWidth, BitVec.toNat_setWidth]
  omega

theorem byteOperand_toNat (v : Byte) : (byteOperand v).toNat = v.toNat := by
  have := v.isLt
  simp only [byteOperand, BitVec.truncate_eq_setWidth, BitVec.toNat_setWidth]
  omega

theorem regsUpTo_length (s : State) (x : RegIdx) : (regsUpTo s x).length = x.val + 1 := by
  have := x.isLt
  simp only [regsUpTo, List.length_take, Vector.length_toList]
  omega

theorem regsUpTo_getElem (s : State) (x k : RegIdx) (h : k.val < (regsUpTo s x).length) :
    (regsUpTo s x)[k.val] = s.getV k := by
  simp [regsUpTo, State.getV]

theorem glyphAddr_toNat (d : Fin 16) : (glyphAddr d).toNat = fontBase + 5 * d.val := by
  have := d.isLt
  simp only [glyphAddr, fontBase, BitVec.toNat_ofNat]
  omega

theorem keyByte_toNat (k : KeyIdx) : (keyByte k).toNat = k.val := by
  have := k.isLt
  simp only [keyByte, BitVec.toNat_ofNat]
  omega

@[simp] theorem bcdDigits_length (a : Byte) : (bcdDigits a).length = 3 := rfl

theorem flagByte_toNat (c : Bool) : (flagByte c).toNat = if c then 1 else 0 := by
  cases c <;> rfl

theorem flagByte_cases (c : Bool) : flagByte c = 0 ∨ flagByte c = 1 := by
  cases c <;> simp [flagByte]

theorem greaterFlag_self (a : Byte) : greaterFlag a a = false := by
  simp [greaterFlag]

/-- The carry is exactly what the 8-bit sum loses. -/
theorem add_toNat_carry (a b : Byte) :
    a.toNat + b.toNat = (a + b).toNat + 256 * (flagByte (carryFlag a b)).toNat := by
  have ha := a.isLt
  have hb := b.isLt
  rw [flagByte_toNat, BitVec.toNat_add]
  simp only [carryFlag, decide_eq_true_eq]
  split <;> omega

/-! ### The stack pointer -/

theorem pushed_eq_none (p : Sp) : p.pushed = none ↔ p.toInt = 15 := by
  cases p with
  | empty => simp [Sp.pushed, Sp.toInt]
  | top k =>
    have := k.isLt
    simp only [Sp.pushed, Sp.toInt]
    split <;> simp <;> omega

theorem pushed_eq_some (p : Sp) (k : Fin 16) : p.pushed = some k ↔ (k.val : Int) = p.toInt + 1 := by
  cases p with
  | empty =>
    simp only [Sp.pushed, Sp.toInt, Option.some.injEq]
    constructor
    · rintro rfl; rfl
    · intro h; ext; simp at h ⊢; omega
  | top j =>
    have := k.isLt
    simp only [Sp.pushed, Sp.toInt]
    split
    · simp only [Option.some.injEq, Fin.ext_iff]; omega
    · simp; omega

theorem spBelow_toInt (k : Fin 16) : (spBelow k).toInt = (k.val : Int) - 1 := by
  unfold spBelow
  split
  · simp [Sp.toInt]; omega
  · simp [Sp.toInt]; omega

theorem toInt_eq_empty (p : Sp) : p.toInt = -1 ↔ p = .empty := by
  cases p with
  | empty => simp [Sp.toInt]
  | top k => simp [Sp.toInt]

theorem toInt_eq_top (p : Sp) (k : Fin 16) : p.toInt = (k.val : Int) ↔ p = .top k := by
  cases p with
  | empty => simp [Sp.toInt]
  | top j => simp [Sp.toInt, Fin.ext_iff]

theorem toInt_bounds (p : Sp) : -1 ≤ p.toInt ∧ p.toInt ≤ 15 := by
  cases p with
  | empty => simp [Sp.toInt]
  | top k => have := k.isLt; simp [Sp.toInt]; omega

/-- The 5-bit encoding loses nothing. -/
theorem toBits_toInt (p : Sp) : p.toBits.toInt = p.toInt := by
  cases p with
  | empty => rfl
  | top k => revert k; decide

/-! ### Fetch -/

theorem wordOfBytes_toNat (hi lo : Byte) : (wordOfBytes hi lo).toNat = 256 * hi.toNat + lo.toNat := by
  have h1 := hi.isLt
  have h2 := lo.isLt
  simp only [wordOfBytes, BitVec.toNat_append]
  rw [Nat.shiftLeft_eq, ← Nat.mul_comm (2 ^ 8), Nat.two_pow_add_eq_or_of_lt h2]

theorem wordAtPc_eq (s : State) :
    wordAtPc s = wordOfBytes (s.byteAt s.pc.toNat) (s.byteAt (s.pc.toNat + 1)) := by
  apply BitVec.eq_of_toNat_eq
  have h := (wordOfBytes (s.byteAt s.pc.toNat) (s.byteAt (s.pc.toNat + 1))).isLt
  rw [wordOfBytes_toNat] at h ⊢
  simp only [wordAtPc, BitVec.toNat_ofNat]
  omega

/-- All a fetch can do. -/
theorem fetch_eq (s : State) :
    fetch s = if s.pc.toNat ≤ 0xFFE then .ok (wordAtPc s)
      else .error (.memoryOutOfRange (max s.pc.toNat 0x1000)) := by
  rw [wordAtPc_eq]
  unfold fetch
  by_cases h : s.pc.toNat ≤ 0xFFE
  · rw [if_pos h, (outOfRange_eq_none _ _).mpr (by omega)]
  · rw [if_neg h, (outOfRange_eq_some _ _ _).mpr ⟨by omega, by omega, rfl⟩]

theorem bytesOfWord_wordOfBytes (w : Word) :
    wordOfBytes (w.extractLsb' 8 8) (w.extractLsb' 0 8) = w := by
  apply BitVec.eq_of_toNat_eq
  have := w.isLt
  rw [wordOfBytes_toNat]
  simp only [BitVec.extractLsb'_toNat, Nat.shiftRight_eq_div_pow]
  omega

/-- A placed word is the one fetched. -/
theorem fetch_placeWord (s : State) (w : Word) (h : s.pc.toNat ≤ 0xFFE) :
    fetch (placeWord s w) = .ok w := by
  have hp : placeWord s w = s.setMem (storeBytes s.mem s.pc.toNat (bytesOfWord w)) := by
    simp [placeWord, (outOfRange_eq_none s.pc.toNat 2).mpr (by omega)]
  rw [fetch_eq, hp]
  simp only [State.setMem_pc, h, if_true, wordAtPc_eq, State.setMem_byteAt]
  have h0 := memRead_storeBytes_at s.mem s.pc.toNat 0 (bytesOfWord w) (by simp [bytesOfWord])
  have h1 := memRead_storeBytes_at s.mem s.pc.toNat 1 (bytesOfWord w) (by simp [bytesOfWord])
  simp only [Nat.add_zero] at h0
  rw [h0, h1]
  simp [bytesOfWord, bytesOfWord_wordOfBytes]

/-- All a step can do. -/
theorem step_cases (s : State) :
    (0xFFE < s.pc.toNat ∧ step s = .fault (.memoryOutOfRange (max s.pc.toNat 0x1000))) ∨
    (s.pc.toNat ≤ 0xFFE ∧ decodeWord (wordAtPc s) = none ∧
      step s = .fault (.unmatchedInstruction (wordAtPc s))) ∨
    (s.pc.toNat ≤ 0xFFE ∧ ∃ i, decodeWord (wordAtPc s) = some i ∧ step s = exec i s) := by
  by_cases h : s.pc.toNat ≤ 0xFFE
  · right
    have hf : fetch s = .ok (wordAtPc s) := by rw [fetch_eq, if_pos h]
    cases hd : decodeWord (wordAtPc s) with
    | none => left; exact ⟨h, rfl, by simp [step, hf, hd, raise]⟩
    | some i => right; exact ⟨h, i, rfl, by simp [step, hf, hd]⟩
  · left
    have hf : fetch s = .error (.memoryOutOfRange (max s.pc.toNat 0x1000)) := by rw [fetch_eq, if_neg h]
    exact ⟨by omega, by simp [step, hf, raise]⟩

end Sys2Proof.Machine
end

