-- ==== Sys2Proof/Laws/Exec.lean ====
section
/-! SUPPORT. One equation for each instruction whose effect has a check, on the states that pass it, so that no
proof unfolds those meanings; the other meanings are one line and true by `rfl`. -/

namespace Sys2Proof.Machine

variable (s : State)

theorem exec_ret_top (k : Fin 16) (h : s.sp = .top k) :
    exec .ret s = .next ((s.setPc s.stack[k.val]).setSp (spBelow k)) := by
  simp only [exec, execRet, h]

theorem exec_ret_empty (h : s.sp = .empty) : exec .ret s = .fault (.stackUnderflow s.pc) := by
  simp only [exec, execRet, h, raise]

theorem exec_call_room (nnn : Addr12) (k : Fin 16) (h : s.sp.pushed = some k) :
    exec (.call nnn) s = .next (((s.setSp (.top k)).setSlot k (s.pc + 2)).setPc (addrOperand nnn)) := by
  simp only [exec, execCall, h]

theorem exec_call_full (nnn : Addr12) (h : s.sp.pushed = none) :
    exec (.call nnn) s = .fault (.stackOverflow s.pc) := by
  simp only [exec, execCall, h, raise]

theorem exec_skp_digit (x : RegIdx) (h : (s.getV x).toNat < 16) :
    exec (.skp x) s = .next (s.skipIf (s.keys.getLsbD (s.getV x).toNat)) := by
  simp only [exec, execSkp, withIndex_inside _ _ h, isKeyDown]

theorem exec_sknp_digit (x : RegIdx) (h : (s.getV x).toNat < 16) :
    exec (.sknp x) s = .next (s.skipIf (!s.keys.getLsbD (s.getV x).toNat)) := by
  simp only [exec, execSknp, withIndex_inside _ _ h, isKeyDown]

theorem exec_ldFVx_digit (x : RegIdx) (h : (s.getV x).toNat < 16) :
    exec (.ldFVx x) s = .next (s.setI (glyphAddr ⟨(s.getV x).toNat, h⟩)).advance := by
  simp only [exec, execLdFVx, withIndex_inside _ _ h]

theorem exec_skp_above (x : RegIdx) (h : 15 < (s.getV x).toNat) :
    exec (.skp x) s = .fault (.operandOutOfDomain (s.getV x)) := by
  simp only [exec, execSkp, withIndex_outside _ _ h]

theorem exec_sknp_above (x : RegIdx) (h : 15 < (s.getV x).toNat) :
    exec (.sknp x) s = .fault (.operandOutOfDomain (s.getV x)) := by
  simp only [exec, execSknp, withIndex_outside _ _ h]

theorem exec_ldFVx_above (x : RegIdx) (h : 15 < (s.getV x).toNat) :
    exec (.ldFVx x) s = .fault (.operandOutOfDomain (s.getV x)) := by
  simp only [exec, execLdFVx, withIndex_outside _ _ h]

theorem exec_ldBVx_inside (x : RegIdx) (h : s.I.toNat + 3 ≤ 0x1000) :
    exec (.ldBVx x) s =
      .next (s.setMem (storeBytes s.mem s.I.toNat (bcdDigits (s.getV x)))).advance := by
  simp only [exec, execLdBVx, withRange_inside _ _ _ (Or.inr h)]

theorem exec_ldMemVx_inside (x : RegIdx) (h : s.I.toNat + (x.val + 1) ≤ 0x1000) :
    exec (.ldMemVx x) s = .next (s.setMem (storeBytes s.mem s.I.toNat (regsUpTo s x))).advance := by
  simp only [exec, execLdMemVx, withRange_inside _ _ _ (Or.inr h)]

theorem exec_ldVxMem_inside (x : RegIdx) (h : s.I.toNat + (x.val + 1) ≤ 0x1000) :
    exec (.ldVxMem x) s = .next (s.loadRegs x s.I.toNat).advance := by
  simp only [exec, execLdVxMem, withRange_inside _ _ _ (Or.inr h)]

theorem exec_drw_inside (x y : RegIdx) (n : Count) (h : n.val = 0 ∨ s.I.toNat + n.val ≤ 0x1000) :
    exec (.drw x y n) s =
      .next (((s.setDisp (drawSprite s.disp (loadBytes s.mem s.I.toNat n.val) (s.getV x).toNat
        (s.getV y).toNat).1).setFlag (drawSprite s.disp (loadBytes s.mem s.I.toNat n.val) (s.getV x).toNat
        (s.getV y).toNat).2).advance) := by
  simp only [exec, execDrw, withRange_inside _ _ _ h]

theorem exec_ldBVx_outside (x : RegIdx) (h : 0x1000 < s.I.toNat + 3) :
    exec (.ldBVx x) s = .fault (.memoryOutOfRange (max s.I.toNat 0x1000)) := by
  simp only [exec, execLdBVx, withRange_outside _ 3 _ (by decide) h]

theorem exec_ldMemVx_outside (x : RegIdx) (h : 0x1000 < s.I.toNat + (x.val + 1)) :
    exec (.ldMemVx x) s = .fault (.memoryOutOfRange (max s.I.toNat 0x1000)) := by
  simp only [exec, execLdMemVx, withRange_outside _ _ _ (Nat.succ_pos x.val) h]

theorem exec_ldVxMem_outside (x : RegIdx) (h : 0x1000 < s.I.toNat + (x.val + 1)) :
    exec (.ldVxMem x) s = .fault (.memoryOutOfRange (max s.I.toNat 0x1000)) := by
  simp only [exec, execLdVxMem, withRange_outside _ _ _ (Nat.succ_pos x.val) h]

theorem exec_drw_outside (x y : RegIdx) (n : Count) (h0 : 0 < n.val) (h : 0x1000 < s.I.toNat + n.val) :
    exec (.drw x y n) s = .fault (.memoryOutOfRange (max s.I.toNat 0x1000)) := by
  simp only [exec, execDrw, withRange_outside _ _ _ h0 h]

theorem exec_ldVxK_none (x : RegIdx) (h : s.keys = 0) : exec (.ldVxK x) s = .next s := by
  simp only [exec, execLdVxK, h, if_true]

theorem exec_ldVxK_some (x : RegIdx) (h : s.keys ≠ 0) :
    exec (.ldVxK x) s = .next (s.setV x (keyByte s.lastKey)).advance := by
  simp only [exec, execLdVxK, h, if_false]

end Sys2Proof.Machine
end

