-- ==== Sys2Proof/Laws/Frame.lean ====
section
/-! SUPPORT. Frames: what each single update leaves alone, and how frames compose. A meaning's frame is proved by
chaining these over the updates it makes. -/

namespace Sys2Proof.Machine

variable {changed changed' : Part → Prop} {s t u : State}

theorem Part.same_refl (p : Part) (s : State) : p.Same s s := by
  cases p <;> rfl

theorem Part.same_trans {p : Part} (h1 : p.Same s t) (h2 : p.Same t u) : p.Same s u := by
  cases p <;> exact Eq.trans h2 h1

theorem KeepsAllBut.refl (changed : Part → Prop) (s : State) : KeepsAllBut changed s s :=
  fun p _ => p.same_refl s

theorem KeepsAllBut.trans (h1 : KeepsAllBut changed s t) (h2 : KeepsAllBut changed t u) :
    KeepsAllBut changed s u :=
  fun p hp => Part.same_trans (h1 p hp) (h2 p hp)

theorem KeepsAllBut.mono (h : KeepsAllBut changed s t) (hle : ∀ p, changed p → changed' p) :
    KeepsAllBut changed' s t :=
  fun p hp => h p (fun hc => hp (hle p hc))

theorem keeps_setPc (changed : Part → Prop) (s : State) (a : Word) : KeepsAllBut changed s (s.setPc a) := by
  intro p _; cases p <;> rfl

theorem keeps_setV (s : State) (k : RegIdx) (v : Byte) (h : changed (.reg k)) :
    KeepsAllBut changed s (s.setV k v) := by
  intro p hp
  cases p with
  | reg j =>
    have : k ≠ j := by rintro rfl; exact hp h
    exact s.setV_getV_ne k v j this
  | _ => rfl

theorem keeps_setI (s : State) (a : Word) (h : changed .addressRegister) :
    KeepsAllBut changed s (s.setI a) := by
  intro p hp
  cases p with
  | addressRegister => exact absurd h hp
  | _ => rfl

theorem keeps_setSp (s : State) (q : Sp) (h : changed .stackPointer) : KeepsAllBut changed s (s.setSp q) := by
  intro p hp
  cases p with
  | stackPointer => exact absurd h hp
  | _ => rfl

theorem keeps_setSlot (s : State) (k : Fin 16) (w : Word) (h : changed (.slot k)) :
    KeepsAllBut changed s (s.setSlot k w) := by
  intro p hp
  cases p with
  | slot j =>
    have : k ≠ j := by rintro rfl; exact hp h
    exact (s.setSlot_get k w j).trans (if_neg this)
  | _ => rfl

theorem keeps_setDT (s : State) (v : Byte) (h : changed .delayTimer) : KeepsAllBut changed s (s.setDT v) := by
  intro p hp
  cases p with
  | delayTimer => exact absurd h hp
  | _ => rfl

theorem keeps_setST (s : State) (v : Byte) (h : changed .soundTimer) : KeepsAllBut changed s (s.setST v) := by
  intro p hp
  cases p with
  | soundTimer => exact absurd h hp
  | _ => rfl

theorem keeps_setKeys (s : State) (m : Word) (h : changed .keyMask) : KeepsAllBut changed s (s.setKeys m) := by
  intro p hp
  cases p with
  | keyMask => exact absurd h hp
  | _ => rfl

theorem keeps_setLastKey (s : State) (k : KeyIdx) (h : changed .lastKey) :
    KeepsAllBut changed s (s.setLastKey k) := by
  intro p hp
  cases p with
  | lastKey => exact absurd h hp
  | _ => rfl

theorem keeps_countDraw (s : State) (h : changed .draws) : KeepsAllBut changed s s.countDraw := by
  intro p hp
  cases p with
  | draws => exact absurd h hp
  | _ => rfl

theorem keeps_setDisp (s : State) (d : Display) (h : ∀ r c, changed (.pixel r c)) :
    KeepsAllBut changed s (s.setDisp d) := by
  intro p hp
  cases p with
  | pixel r c => exact absurd (h r c) hp
  | _ => rfl

/-- A store of bytes leaves every byte outside them alone. -/
theorem keeps_storeBytes (s : State) (base : Nat) (vs : List Byte)
    (h : ∀ k, k < vs.length → changed (.byte (base + k))) :
    KeepsAllBut changed s (s.setMem (storeBytes s.mem base vs)) := by
  intro p hp
  cases p with
  | byte a =>
    have hout : a < base ∨ base + vs.length ≤ a := by
      by_contra hin
      obtain ⟨k, rfl⟩ : ∃ k, a = base + k := ⟨a - base, by omega⟩
      exact hp (h k (by omega))
    show memRead (storeBytes s.mem base vs) a = memRead s.mem a
    exact memRead_storeBytes_outside s.mem base a vs hout
  | _ => rfl

/-- Loading registers leaves the registers above `x` and everything else alone. -/
theorem keeps_loadRegs (s : State) (x : RegIdx) (base : Nat)
    (h : ∀ k : RegIdx, k.val ≤ x.val → changed (.reg k)) : KeepsAllBut changed s (s.loadRegs x base) := by
  intro p hp
  cases p with
  | reg k =>
    have hk : ¬ k.val ≤ x.val := fun hk => hp (h k hk)
    simp only [Part.Same, State.loadRegs_getV, if_neg hk]
  | _ => simp only [Part.Same, State.loadRegs_I, State.loadRegs_sp, State.loadRegs_stack, State.loadRegs_DT,
      State.loadRegs_ST, State.loadRegs_byteAt, State.loadRegs_disp, State.loadRegs_keys,
      State.loadRegs_lastKey, State.loadRegs_rndCount]

end Sys2Proof.Machine
end

