-- ==== Sys2Proof/Laws/PerInstr.lean ====
section
/-! SUPPORT. Per-instruction family `RowOfEncoding`: the encoded word of every instruction has the fixed bits of a
row of the table (spec/30_encoding.md R66), and that row's argument decoder gives the instruction back, with
every operand. For SYS this holds of all `nnn`; that CLS and RET own two of its words is `Instr.wellFormed`. -/

namespace Sys2Proof.Laws.RowOfEncoding

/-- Some row of R66 matches the instruction's word under its mask and builds the instruction from it. -/
def Statement (i : Instr) : Prop :=
  ∃ d ∈ opcodeTable, encode i &&& d.mask = d.pattern ∧ d.build (encode i) = i

/-- Row `n` of the table is in it. -/
theorem row_mem (n : Nat) (h : n < opcodeTable.length) : opcodeTable[n] ∈ opcodeTable := List.getElem_mem h

theorem sys (nnn : Addr12) : Statement (.sys nnn) :=
  ⟨_, row_mem 0 (by decide), encNNN_fixed _ _,
    by show fmtNNN (.sys) (encode (.sys nnn)) = _; simp [fmtNNN, encode]⟩

theorem cls : Statement .cls :=
  ⟨_, row_mem 1 (by decide), by decide, rfl⟩

theorem ret : Statement .ret :=
  ⟨_, row_mem 2 (by decide), by decide, rfl⟩

theorem jp (nnn : Addr12) : Statement (.jp nnn) :=
  ⟨_, row_mem 3 (by decide), encNNN_fixed _ _,
    by show fmtNNN (.jp) (encode (.jp nnn)) = _; simp [fmtNNN, encode]⟩

theorem call (nnn : Addr12) : Statement (.call nnn) :=
  ⟨_, row_mem 4 (by decide), encNNN_fixed _ _,
    by show fmtNNN (.call) (encode (.call nnn)) = _; simp [fmtNNN, encode]⟩

theorem seImm (x : RegIdx) (kk : Byte) : Statement (.seImm x kk) :=
  ⟨_, row_mem 5 (by decide), encXKK_fixed _ _ _,
    by show fmtXKK (.seImm) (encode (.seImm x kk)) = _; simp [fmtXKK, encode]⟩

theorem sneImm (x : RegIdx) (kk : Byte) : Statement (.sneImm x kk) :=
  ⟨_, row_mem 6 (by decide), encXKK_fixed _ _ _,
    by show fmtXKK (.sneImm) (encode (.sneImm x kk)) = _; simp [fmtXKK, encode]⟩

theorem seReg (x y : RegIdx) : Statement (.seReg x y) :=
  ⟨_, row_mem 7 (by decide), encXYN_fixed_low _ _ _ _,
    by show fmtXY (.seReg) (encode (.seReg x y)) = _; simp [fmtXY, encode]⟩

theorem sneReg (x y : RegIdx) : Statement (.sneReg x y) :=
  ⟨_, row_mem 8 (by decide), encXYN_fixed_low _ _ _ _,
    by show fmtXY (.sneReg) (encode (.sneReg x y)) = _; simp [fmtXY, encode]⟩

theorem ldImm (x : RegIdx) (kk : Byte) : Statement (.ldImm x kk) :=
  ⟨_, row_mem 9 (by decide), encXKK_fixed _ _ _,
    by show fmtXKK (.ldImm) (encode (.ldImm x kk)) = _; simp [fmtXKK, encode]⟩

theorem addImm (x : RegIdx) (kk : Byte) : Statement (.addImm x kk) :=
  ⟨_, row_mem 10 (by decide), encXKK_fixed _ _ _,
    by show fmtXKK (.addImm) (encode (.addImm x kk)) = _; simp [fmtXKK, encode]⟩

theorem ldReg (x y : RegIdx) : Statement (.ldReg x y) :=
  ⟨_, row_mem 11 (by decide), encXYN_fixed_low _ _ _ _,
    by show fmtXY (.ldReg) (encode (.ldReg x y)) = _; simp [fmtXY, encode]⟩

theorem orReg (x y : RegIdx) : Statement (.orReg x y) :=
  ⟨_, row_mem 12 (by decide), encXYN_fixed_low _ _ _ _,
    by show fmtXY (.orReg) (encode (.orReg x y)) = _; simp [fmtXY, encode]⟩

theorem andReg (x y : RegIdx) : Statement (.andReg x y) :=
  ⟨_, row_mem 13 (by decide), encXYN_fixed_low _ _ _ _,
    by show fmtXY (.andReg) (encode (.andReg x y)) = _; simp [fmtXY, encode]⟩

theorem xorReg (x y : RegIdx) : Statement (.xorReg x y) :=
  ⟨_, row_mem 14 (by decide), encXYN_fixed_low _ _ _ _,
    by show fmtXY (.xorReg) (encode (.xorReg x y)) = _; simp [fmtXY, encode]⟩

theorem addReg (x y : RegIdx) : Statement (.addReg x y) :=
  ⟨_, row_mem 15 (by decide), encXYN_fixed_low _ _ _ _,
    by show fmtXY (.addReg) (encode (.addReg x y)) = _; simp [fmtXY, encode]⟩

theorem subReg (x y : RegIdx) : Statement (.subReg x y) :=
  ⟨_, row_mem 16 (by decide), encXYN_fixed_low _ _ _ _,
    by show fmtXY (.subReg) (encode (.subReg x y)) = _; simp [fmtXY, encode]⟩

theorem subnReg (x y : RegIdx) : Statement (.subnReg x y) :=
  ⟨_, row_mem 17 (by decide), encXYN_fixed_low _ _ _ _,
    by show fmtXY (.subnReg) (encode (.subnReg x y)) = _; simp [fmtXY, encode]⟩

theorem shr (x y : RegIdx) : Statement (.shr x y) :=
  ⟨_, row_mem 18 (by decide), encXYN_fixed_low _ _ _ _,
    by show fmtXY (.shr) (encode (.shr x y)) = _; simp [fmtXY, encode]⟩

theorem shl (x y : RegIdx) : Statement (.shl x y) :=
  ⟨_, row_mem 19 (by decide), encXYN_fixed_low _ _ _ _,
    by show fmtXY (.shl) (encode (.shl x y)) = _; simp [fmtXY, encode]⟩

theorem ldI (nnn : Addr12) : Statement (.ldI nnn) :=
  ⟨_, row_mem 20 (by decide), encNNN_fixed _ _,
    by show fmtNNN (.ldI) (encode (.ldI nnn)) = _; simp [fmtNNN, encode]⟩

theorem jpV0 (nnn : Addr12) : Statement (.jpV0 nnn) :=
  ⟨_, row_mem 21 (by decide), encNNN_fixed _ _,
    by show fmtNNN (.jpV0) (encode (.jpV0 nnn)) = _; simp [fmtNNN, encode]⟩

theorem rnd (x : RegIdx) (kk : Byte) : Statement (.rnd x kk) :=
  ⟨_, row_mem 22 (by decide), encXKK_fixed _ _ _,
    by show fmtXKK (.rnd) (encode (.rnd x kk)) = _; simp [fmtXKK, encode]⟩

theorem drw (x y : RegIdx) (n : Count) : Statement (.drw x y n) :=
  ⟨_, row_mem 23 (by decide), encXYN_fixed _ _ _ _,
    by show fmtXYN (.drw) (encode (.drw x y n)) = _; simp [fmtXYN, encode]⟩

theorem skp (x : RegIdx) : Statement (.skp x) :=
  ⟨_, row_mem 24 (by decide), encXKK_fixed_low _ _ _,
    by show fmtX (.skp) (encode (.skp x)) = _; simp [fmtX, encode]⟩

theorem sknp (x : RegIdx) : Statement (.sknp x) :=
  ⟨_, row_mem 25 (by decide), encXKK_fixed_low _ _ _,
    by show fmtX (.sknp) (encode (.sknp x)) = _; simp [fmtX, encode]⟩

theorem ldVxDT (x : RegIdx) : Statement (.ldVxDT x) :=
  ⟨_, row_mem 26 (by decide), encXKK_fixed_low _ _ _,
    by show fmtX (.ldVxDT) (encode (.ldVxDT x)) = _; simp [fmtX, encode]⟩

theorem ldVxK (x : RegIdx) : Statement (.ldVxK x) :=
  ⟨_, row_mem 27 (by decide), encXKK_fixed_low _ _ _,
    by show fmtX (.ldVxK) (encode (.ldVxK x)) = _; simp [fmtX, encode]⟩

theorem ldDTVx (x : RegIdx) : Statement (.ldDTVx x) :=
  ⟨_, row_mem 28 (by decide), encXKK_fixed_low _ _ _,
    by show fmtX (.ldDTVx) (encode (.ldDTVx x)) = _; simp [fmtX, encode]⟩

theorem ldSTVx (x : RegIdx) : Statement (.ldSTVx x) :=
  ⟨_, row_mem 29 (by decide), encXKK_fixed_low _ _ _,
    by show fmtX (.ldSTVx) (encode (.ldSTVx x)) = _; simp [fmtX, encode]⟩

theorem addIVx (x : RegIdx) : Statement (.addIVx x) :=
  ⟨_, row_mem 30 (by decide), encXKK_fixed_low _ _ _,
    by show fmtX (.addIVx) (encode (.addIVx x)) = _; simp [fmtX, encode]⟩

theorem ldFVx (x : RegIdx) : Statement (.ldFVx x) :=
  ⟨_, row_mem 31 (by decide), encXKK_fixed_low _ _ _,
    by show fmtX (.ldFVx) (encode (.ldFVx x)) = _; simp [fmtX, encode]⟩

theorem ldBVx (x : RegIdx) : Statement (.ldBVx x) :=
  ⟨_, row_mem 32 (by decide), encXKK_fixed_low _ _ _,
    by show fmtX (.ldBVx) (encode (.ldBVx x)) = _; simp [fmtX, encode]⟩

theorem ldMemVx (x : RegIdx) : Statement (.ldMemVx x) :=
  ⟨_, row_mem 33 (by decide), encXKK_fixed_low _ _ _,
    by show fmtX (.ldMemVx) (encode (.ldMemVx x)) = _; simp [fmtX, encode]⟩

theorem ldVxMem (x : RegIdx) : Statement (.ldVxMem x) :=
  ⟨_, row_mem 34 (by decide), encXKK_fixed_low _ _ _,
    by show fmtX (.ldVxMem) (encode (.ldVxMem x)) = _; simp [fmtX, encode]⟩

end Sys2Proof.Laws.RowOfEncoding
end

