-- ==== Sys2Proof/Laws/Sprite.lean ====
section
/-! SUPPORT. What the sprite unit does, pixel by pixel: one law for `drawPixel`, one for a row, one for a sprite
of at most 32 rows (spec/43_display.md R151, R152: the pixel positions of one sprite are distinct). -/

namespace Sys2Proof.Machine

theorem pixel_setPixel (d : Display) (r r' : Fin 32) (c c' : Fin 64) (b : Bool) :
    pixel (setPixel d r c b) r' c' = if r = r' ∧ c = c' then b else pixel d r' c' := by
  simp only [pixel, setPixel, Vector.getElem_set, Fin.ext_iff]
  by_cases h : r.val = r'.val
  · simp only [h, if_true, true_and, Vector.getElem_set]
  · simp [h]

theorem pixel_blank (r : Fin 32) (c : Fin 64) : pixel blankDisplay r c = false := by
  simp [pixel, blankDisplay]

/-- Displays are their pixels. -/
theorem display_ext (d e : Display) (h : ∀ r c, pixel d r c = pixel e r c) : d = e := by
  apply Vector.ext
  intro r hr
  apply Vector.ext
  intro c hc
  exact h ⟨r, hr⟩ ⟨c, hc⟩

theorem pixel_drawPixel (d : Display) (v : Bool) (x y : Nat) (r : Fin 32) (c : Fin 64) :
    pixel (drawPixel d v x y).1 r c =
      (pixel d r c ^^ (v && decide (y % 32 = r.val) && decide (x % 64 = c.val))) := by
  simp only [drawPixel, pixel_setPixel, wrapRow, wrapCol, Fin.ext_iff]
  by_cases h : y % 32 = r.val ∧ x % 64 = c.val
  · have h1 : (⟨y % 32, Nat.mod_lt y (by decide)⟩ : Fin 32) = r := Fin.ext h.1
    have h2 : (⟨x % 64, Nat.mod_lt x (by decide)⟩ : Fin 64) = c := Fin.ext h.2
    simp [h.1, h.2]
  · rw [if_neg h]
    by_cases h1 : y % 32 = r.val <;> by_cases h2 : x % 64 = c.val <;> simp_all

theorem drawPixel_hit (d : Display) (v : Bool) (x y : Nat) :
    (drawPixel d v x y).2 = (pixel d (wrapRow y) (wrapCol x) && v) := rfl

/-- Whether a row byte drawn at column `x` has a 1 bit on column `c`. -/
def rowBit (byte : Byte) (x : Nat) (c : Fin 64) : Bool :=
  decide ((c.val + 64 - x % 64) % 64 < 8) && byte.getLsbD (7 - (c.val + 64 - x % 64) % 64)

/-- The bits of column offsets below `n` only. -/
def rowBitBelow (n : Nat) (byte : Byte) (x : Nat) (c : Fin 64) : Bool :=
  decide ((c.val + 64 - x % 64) % 64 < n) && byte.getLsbD (7 - (c.val + 64 - x % 64) % 64)

theorem foldl_drawBit (byte : Byte) (x y : Nat) (acc : Display × Bool) (n : Nat) (hn : n ≤ 8) :
    (∀ r c, pixel ((List.range n).foldl (drawBit byte x y) acc).1 r c =
      (pixel acc.1 r c ^^ (decide (y % 32 = r.val) && rowBitBelow n byte x c))) ∧
    (((List.range n).foldl (drawBit byte x y) acc).2 = true ↔
      acc.2 = true ∨ ∃ r c, pixel acc.1 r c = true ∧ y % 32 = r.val ∧ rowBitBelow n byte x c = true) := by
  induction n with
  | zero => simp [rowBitBelow]
  | succ n ih =>
    obtain ⟨ihp, ihh⟩ := ih (by omega)
    rw [List.range_succ, List.foldl_append, List.foldl_cons, List.foldl_nil]
    have key : ∀ c : Fin 64, (x + n) % 64 = c.val ↔ (c.val + 64 - x % 64) % 64 = n := by
      intro c; have := c.isLt; omega
    have step : ∀ c : Fin 64, rowBitBelow (n + 1) byte x c =
        (rowBitBelow n byte x c ^^ (decide ((x + n) % 64 = c.val) && byte.getLsbD (7 - n))) := by
      intro c
      simp only [rowBitBelow, key c]
      generalize (c.val + 64 - x % 64) % 64 = m
      by_cases h1 : m = n
      · subst h1; simp
      · have : m < n + 1 ↔ m < n := by omega
        simp [h1, this]
    constructor
    · intro r c
      simp only [drawBit, pixel_drawPixel, ihp, step]
      generalize decide (y % 32 = r.val) = p
      generalize decide ((x + n) % 64 = c.val) = q
      generalize byte.getLsbD (7 - n) = b
      generalize rowBitBelow n byte x c = e
      generalize pixel acc.1 r c = f
      cases p <;> cases q <;> cases b <;> cases e <;> cases f <;> rfl
    · simp only [drawBit, drawPixel_hit, Bool.or_eq_true, ihh, Bool.and_eq_true, ihp, step]
      have hw : rowBitBelow n byte x (wrapCol (x + n)) = false := by
        have := (key (wrapCol (x + n))).mp rfl
        simp [rowBitBelow, this]
      rw [hw]
      simp only [Bool.and_false, Bool.xor_false]
      constructor
      · rintro ((h | ⟨r, c, h1, h2, h3⟩) | ⟨h1, h2⟩)
        · exact Or.inl h
        · refine Or.inr ⟨r, c, h1, h2, ?_⟩
          have : ¬ (x + n) % 64 = c.val := by
            intro e
            have := (key c).mp e
            simp [rowBitBelow, this] at h3
          simp [h3, this]
        · refine Or.inr ⟨wrapRow y, wrapCol (x + n), h1, rfl, ?_⟩
          rw [hw]
          simp [wrapCol, h2]
      · rintro (h | ⟨r, c, h1, h2, h3⟩)
        · exact Or.inl (Or.inl h)
        · by_cases e : (x + n) % 64 = c.val
          · right
            have hr : wrapRow y = r := Fin.ext h2
            have hc : wrapCol (x + n) = c := Fin.ext e
            rw [hc] at hw
            rw [hr, hc]
            simp [hw, e] at h3
            exact ⟨h1, h3⟩
          · left; right
            simp [e] at h3
            exact ⟨r, c, h1, h2, h3⟩

theorem rowBitBelow_eight (byte : Byte) (x : Nat) (c : Fin 64) :
    rowBitBelow 8 byte x c = rowBit byte x c := rfl

/-- All a row does to the pixels. -/
theorem pixel_drawRow (byte : Byte) (x y : Nat) (acc : Display × Bool) (r : Fin 32) (c : Fin 64) :
    pixel (drawRow byte x y acc).1 r c =
      (pixel acc.1 r c ^^ (decide (y % 32 = r.val) && rowBit byte x c)) :=
  (foldl_drawBit byte x y acc 8 (Nat.le_refl 8)).1 r c

/-- When a row reports a cleared pixel. -/
theorem drawRow_hit (byte : Byte) (x y : Nat) (acc : Display × Bool) :
    (drawRow byte x y acc).2 = true ↔
      acc.2 = true ∨ ∃ r c, pixel acc.1 r c = true ∧ y % 32 = r.val ∧ rowBit byte x c = true :=
  (foldl_drawBit byte x y acc 8 (Nat.le_refl 8)).2

/-- Whether a sprite of row bytes drawn at column `x`, row `y` has a 1 bit on a pixel, computed: the row of the
sprite that falls on display row `r` is the one at offset `(r - y) mod 32`. -/
def spriteBit (bytes : List Byte) (x y : Nat) (r : Fin 32) (c : Fin 64) : Bool :=
  match bytes[(r.val + 32 - y % 32) % 32]? with
  | some byte => rowBit byte x c
  | none => false

theorem spriteBit_nil (x y : Nat) (r : Fin 32) (c : Fin 64) : spriteBit [] x y r c = false := by
  simp [spriteBit]

theorem spriteBit_cons (byte : Byte) (rest : List Byte) (x y : Nat) (r : Fin 32) (c : Fin 64)
    (h : rest.length < 32) :
    spriteBit (byte :: rest) x y r c =
      ((decide (y % 32 = r.val) && rowBit byte x c) ^^ spriteBit rest x (y + 1) r c) := by
  have hr := r.isLt
  by_cases e : y % 32 = r.val
  · have h0 : (r.val + 32 - y % 32) % 32 = 0 := by omega
    have h1 : (r.val + 32 - (y + 1) % 32) % 32 = 31 := by omega
    have hn : rest[31]? = none := List.getElem?_eq_none (by omega)
    simp [spriteBit, h1, hn, e]
  · obtain ⟨k, hk⟩ : ∃ k, (r.val + 32 - y % 32) % 32 = k + 1 := ⟨(r.val + 32 - y % 32) % 32 - 1, by omega⟩
    have h1 : (r.val + 32 - (y + 1) % 32) % 32 = k := by omega
    simp [spriteBit, hk, h1, e]

/-- All the rows of a sprite do: the pixels, and the report. -/
theorem drawRows_spec (bytes : List Byte) : ∀ (x y : Nat) (acc : Display × Bool), bytes.length ≤ 32 →
    (∀ r c, pixel (drawRows bytes x y acc).1 r c = (pixel acc.1 r c ^^ spriteBit bytes x y r c)) ∧
    ((drawRows bytes x y acc).2 = true ↔
      acc.2 = true ∨ ∃ r c, pixel acc.1 r c = true ∧ spriteBit bytes x y r c = true) := by
  induction bytes with
  | nil => intro x y acc _; simp [drawRows, spriteBit_nil]
  | cons byte rest ih =>
    intro x y acc hl
    simp only [List.length_cons] at hl
    obtain ⟨ihp, ihh⟩ := ih x (y + 1) (drawRow byte x y acc) (by omega)
    have hcons := fun r c => spriteBit_cons byte rest x y r c (by omega)
    have excl : ∀ r c, y % 32 = r.val → spriteBit rest x (y + 1) r c = false := by
      intro r c e
      have hr := r.isLt
      have h1 : (r.val + 32 - (y + 1) % 32) % 32 = 31 := by omega
      have hn : rest[31]? = none := List.getElem?_eq_none (by omega)
      simp [spriteBit, h1, hn]
    constructor
    · intro r c
      rw [drawRows, ihp, pixel_drawRow, hcons, Bool.xor_assoc]
    · rw [drawRows, ihh, drawRow_hit]
      constructor
      · rintro ((h | ⟨r, c, h1, h2, h3⟩) | ⟨r, c, h1, h2⟩)
        · exact Or.inl h
        · exact Or.inr ⟨r, c, h1, by simp [hcons, h2, h3, excl r c h2]⟩
        · have hne : ¬ y % 32 = r.val := by
            intro e; simp [excl r c e] at h2
          rw [pixel_drawRow] at h1
          simp [hne] at h1
          exact Or.inr ⟨r, c, h1, by simp [hcons, hne, h2]⟩
      · rintro (h | ⟨r, c, h1, h2⟩)
        · exact Or.inl (Or.inl h)
        · by_cases e : y % 32 = r.val
          · rw [hcons, excl r c e] at h2
            simp [e] at h2
            exact Or.inl (Or.inr ⟨r, c, h1, e, h2⟩)
          · rw [hcons] at h2
            simp [e] at h2
            exact Or.inr ⟨r, c, by simp [pixel_drawRow, e, h1], h2⟩

/-- All `drawSprite` does to the pixels (R152). -/
theorem pixel_drawSprite (d : Display) (bytes : List Byte) (x y : Nat) (h : bytes.length ≤ 32)
    (r : Fin 32) (c : Fin 64) :
    pixel (drawSprite d bytes x y).1 r c = (pixel d r c ^^ spriteBit bytes x y r c) :=
  (drawRows_spec bytes x y (d, false) h).1 r c

/-- `drawSprite` reports exactly that a pixel was 1 under a 1 bit (R152). -/
theorem drawSprite_hit (d : Display) (bytes : List Byte) (x y : Nat) (h : bytes.length ≤ 32) :
    (drawSprite d bytes x y).2 = true ↔ ∃ r c, pixel d r c = true ∧ spriteBit bytes x y r c = true := by
  have := (drawRows_spec bytes x y (d, false) h).2
  simpa [drawSprite] using this

/-- The computed bit is the one the rule's formula names. -/
theorem spriteBit_iff_covers (bytes : List Byte) (x y : Nat) (r : Fin 32) (c : Fin 64)
    (h : bytes.length ≤ 32) : spriteBit bytes x y r c = true ↔ Covers bytes x y r c := by
  have hr := r.isLt
  have hc := c.isLt
  constructor
  · intro hb
    unfold spriteBit at hb
    split at hb
    · next byte hbyte =>
      obtain ⟨hlt, hget⟩ := List.getElem?_eq_some_iff.mp hbyte
      simp only [rowBit, Bool.and_eq_true, decide_eq_true_eq] at hb
      refine ⟨⟨_, hlt⟩, ⟨_, hb.1⟩, ?_, ?_, ?_⟩
      · show (y + (r.val + 32 - y % 32) % 32) % 32 = r.val
        omega
      · show (x + (c.val + 64 - x % 64) % 64) % 64 = c.val
        omega
      · simpa [hget] using hb.2
    · exact absurd hb (by simp)
  · rintro ⟨⟨row, hrow⟩, ⟨col, hcol⟩, h1, h2, h3⟩
    simp only at h1 h2 h3
    have e1 : (r.val + 32 - y % 32) % 32 = row := by omega
    have e2 : (c.val + 64 - x % 64) % 64 = col := by omega
    simp [spriteBit, e1, hrow, rowBit, e2, hcol, h3]

end Sys2Proof.Machine
end

