-- ==== Sys2Proof/Tests/Slice0.lean ====
section
/-! SUPPORT. Tests on fixed values: ill-formed terms, one word for every constructor written out from the encoding
column of spec/30_encoding.md R66, single steps from the vectors of spec/95_test_vectors.md (their ids stand in
the comments), and for every obligation with hypotheses a concrete input that meets them. -/

namespace Sys2Proof.Tests

open Sys2Proof Sys2Proof.Machine

/-! ### Helpers -/

/-- The reset state with a word at 0x200, the vectors' start state. -/
def start (w : Nat) : State := State.reset.withFetchWord 16 w

/-- One step's next state, if it completes. -/
def after (s : State) : Option State :=
  match step s with
  | .next t => some t
  | _ => none

/-- One step's condition, if it raises one. -/
def condition (s : State) : Option Fault :=
  match step s with
  | .fault r => some r
  | _ => none

/-- Bytes of memory put in place. -/
def withBytes (s : State) (a : Nat) (vs : List Byte) : State := s.setMem (storeBytes s.mem a vs)

/-- `V0`, `VF` and `pc` after a step with `V0 = a`, `V1 = b`: the form of the ALU vectors (2.3). -/
def alu (w : Nat) (a b : Byte) : Option (Byte × Byte × Word) :=
  (after (((start w).setV 0 a).setV 1 b)).map (fun t => (t.getV 0, t.getV 15, t.pc))

/-- A display with the one pixel at (column, row) lit. -/
def lit (c : Fin 64) (r : Fin 32) : Display := setPixel blankDisplay r c true

/-! ### WellFormed: each check refuses an ill-formed term -/

theorem test_wellFormed_refuses_sys_0E0 : (Instr.sys 0x0E0).wellFormed = false := by decide
theorem test_wellFormed_refuses_sys_0EE : (Instr.sys 0x0EE).wellFormed = false := by decide
theorem test_wellFormed_takes_their_neighbours :
    (Instr.sys 0x0DF).wellFormed = true ∧ (Instr.sys 0x0E1).wellFormed = true ∧
      (Instr.sys 0x0ED).wellFormed = true ∧ (Instr.sys 0x0EF).wellFormed = true := by decide

/-! ### Decode: every constructor's word, from column `encoding` of R66 -/

/-- 0nnn (V-ENC-3). -/
theorem test_decode_sys : decodeWord 0x0123 = some (.sys 0x123) ∧ decodeWord 0x0000 = some (.sys 0x000) ∧
    decodeWord 0x0FFF = some (.sys 0xFFF) := by decide
/-- 00E0 (V-ENC-1). -/
theorem test_decode_cls : decodeWord 0x00E0 = some .cls ∧ decodeWord 0x00E1 = some (.sys 0x0E1) := by decide
/-- 00EE (V-ENC-2). -/
theorem test_decode_ret : decodeWord 0x00EE = some .ret ∧ decodeWord 0x00EF = some (.sys 0x0EF) := by decide
/-- 1nnn. -/
theorem test_decode_jp : decodeWord 0x1ABC = some (.jp 0xABC) := by decide
/-- 2nnn. -/
theorem test_decode_call : decodeWord 0x220A = some (.call 0x20A) := by decide
/-- 3xkk (V-ENC-7). -/
theorem test_decode_seImm : decodeWord 0x3AFF = some (.seImm 10 0xFF) := by decide
/-- 4xkk. -/
theorem test_decode_sneImm : decodeWord 0x4207 = some (.sneImm 2 0x07) := by decide
/-- 5xy0, and S3: "`0x5123` ... must fail". -/
theorem test_decode_seReg : decodeWord 0x5340 = some (.seReg 3 4) ∧ decodeWord 0x5123 = none := by decide
/-- 9xy0, and V-ENC-4. -/
theorem test_decode_sneReg : decodeWord 0x9340 = some (.sneReg 3 4) ∧ decodeWord 0x9001 = none := by decide
/-- 6xkk. -/
theorem test_decode_ldImm : decodeWord 0x6A2C = some (.ldImm 10 0x2C) := by decide
/-- 7xkk. -/
theorem test_decode_addImm : decodeWord 0x7103 = some (.addImm 1 0x03) := by decide
/-- 8xy0. -/
theorem test_decode_ldReg : decodeWord 0x8120 = some (.ldReg 1 2) := by decide
/-- 8xy1. -/
theorem test_decode_orReg : decodeWord 0x8AB1 = some (.orReg 10 11) := by decide
/-- 8xy2. -/
theorem test_decode_andReg : decodeWord 0x8AB2 = some (.andReg 10 11) := by decide
/-- 8xy3. -/
theorem test_decode_xorReg : decodeWord 0x8AB3 = some (.xorReg 10 11) := by decide
/-- 8xy4. -/
theorem test_decode_addReg : decodeWord 0x8AB4 = some (.addReg 10 11) := by decide
/-- 8xy5. -/
theorem test_decode_subReg : decodeWord 0x8AB5 = some (.subReg 10 11) := by decide
/-- 8xy7. -/
theorem test_decode_subnReg : decodeWord 0x8AB7 = some (.subnReg 10 11) := by decide
/-- 8xy6 (V-ENC-5), and V-ENC-4. -/
theorem test_decode_shr : decodeWord 0x8AB6 = some (.shr 10 11) ∧ decodeWord 0x8008 = none := by decide
/-- 8xyE, and V-ENC-4. -/
theorem test_decode_shl : decodeWord 0x8ABE = some (.shl 10 11) ∧ decodeWord 0x800F = none := by decide
/-- Annn. -/
theorem test_decode_ldI : decodeWord 0xA300 = some (.ldI 0x300) := by decide
/-- Bnnn. -/
theorem test_decode_jpV0 : decodeWord 0xB300 = some (.jpV0 0x300) := by decide
/-- Cxkk. -/
theorem test_decode_rnd : decodeWord 0xC10F = some (.rnd 1 0x0F) := by decide
/-- Dxyn (V-ENC-6). -/
theorem test_decode_drw : decodeWord 0xD12F = some (.drw 1 2 15) := by decide
/-- Ex9E, and V-ENC-4. -/
theorem test_decode_skp : decodeWord 0xEA9E = some (.skp 10) ∧ decodeWord 0xE09F = none := by decide
/-- ExA1, and V-ENC-4. -/
theorem test_decode_sknp : decodeWord 0xEAA1 = some (.sknp 10) ∧ decodeWord 0xE000 = none := by decide
/-- Fx07. -/
theorem test_decode_ldVxDT : decodeWord 0xF407 = some (.ldVxDT 4) := by decide
/-- Fx0A. -/
theorem test_decode_ldVxK : decodeWord 0xF30A = some (.ldVxK 3) := by decide
/-- Fx15. -/
theorem test_decode_ldDTVx : decodeWord 0xFA15 = some (.ldDTVx 10) := by decide
/-- Fx18. -/
theorem test_decode_ldSTVx : decodeWord 0xF218 = some (.ldSTVx 2) := by decide
/-- Fx1E. -/
theorem test_decode_addIVx : decodeWord 0xF21E = some (.addIVx 2) := by decide
/-- Fx29. -/
theorem test_decode_ldFVx : decodeWord 0xF029 = some (.ldFVx 0) := by decide
/-- Fx33. -/
theorem test_decode_ldBVx : decodeWord 0xF033 = some (.ldBVx 0) := by decide
/-- Fx55. -/
theorem test_decode_ldMemVx : decodeWord 0xF155 = some (.ldMemVx 1) := by decide
/-- Fx65, and V-ENC-4. -/
theorem test_decode_ldVxMem : decodeWord 0xF265 = some (.ldVxMem 2) ∧ decodeWord 0xF066 = none ∧
    decodeWord 0xF000 = none ∧ decodeWord 0xFFFF = none := by decide

/-- R40: the first byte is the high one; the bytes after the instruction are left. -/
theorem test_decode_bytes : decode [0xD1, 0x2F, 0x00] = .ok (.drw 1 2 15, [0x00]) := by decide
theorem test_decode_truncated : decode [0xD1] = .error .truncated := by decide
theorem test_decode_unmatched : decode [0x51, 0x23] = .error (.unmatched 0x5123) := by decide
/-- The host's numbering: the word as a number, bits above `nbits` cut off. -/
theorem test_decodeTableWord : decodeTableWord 16 0xD12F = some (.drw 1 2 15) := by decide
/-- R63: "the pattern has no bit outside the mask" for each of the 35 descriptors. It is also the witness that every
`Encodes pattern mask` hypothesis of the obligations is met, by the pattern itself. -/
theorem test_patterns_lie_in_their_masks :
    opcodeTable.length = 35 ∧ opcodeTable.all (fun d => d.pattern &&& d.mask == d.pattern) = true := by decide

/-! ### Control flow (vectors 2.2) -/

/-- V-CF-1. -/
theorem test_sys : (after (start 0x0123)).map (·.pc) = some 0x202 := by decide
/-- V-CF-2. -/
theorem test_jp : (after (start 0x1ABC)).map (·.pc) = some 0xABC := by decide
/-- V-CF-3. -/
theorem test_jp_self : after (start 0x1200) = some (start 0x1200) := by decide
/-- V-CF-4. -/
theorem test_call : (after (start 0x2300)).map (fun t => (t.sp, t.stack[0], t.pc)) =
    some (.top 0, 0x202, 0x300) := by decide
/-- V-CF-5, its 17th step. -/
theorem test_call_overflow :
    condition ((start 0x2200).setSp (.top 15)) = some (.stackOverflow 0x200) := by decide
/-- V-CF-6: the slot keeps its value. -/
theorem test_ret : (after ((((State.reset.setSp (.top 0)).setSlot 0 0x206).setPc 0x20C).withFetchWord 16 0x00EE)).map
    (fun t => (t.pc, t.sp.toInt, t.stack[0])) = some (0x206, -1, 0x206) := by decide
/-- V-CF-7, S7. -/
theorem test_ret_underflow : condition (start 0x00EE) = some (.stackUnderflow 0x200) := by decide
/-- V-CF-8, V-CF-9. -/
theorem test_seImm : (after (start 0x3100)).map (·.pc) = some 0x204 ∧
    (after ((start 0x3100).setV 1 0x04)).map (·.pc) = some 0x202 := by decide
/-- V-CF-10, V-CF-11. -/
theorem test_sneImm : (after ((start 0x4207).setV 2 0x07)).map (·.pc) = some 0x202 ∧
    (after ((start 0x4207).setV 2 0x08)).map (·.pc) = some 0x204 := by decide
/-- V-CF-12, V-CF-13. -/
theorem test_seReg : (after (((start 0x5340).setV 3 0x09).setV 4 0x09)).map (·.pc) = some 0x204 ∧
    (after (((start 0x5340).setV 3 0x09).setV 4 0x08)).map (·.pc) = some 0x202 := by decide
/-- V-CF-15, V-CF-16. -/
theorem test_sneReg : (after (((start 0x9340).setV 3 0x09).setV 4 0x08)).map (·.pc) = some 0x204 ∧
    (after ((start 0x9330).setV 3 0x09)).map (·.pc) = some 0x202 := by decide
/-- V-CF-17. -/
theorem test_jpV0 : (after ((start 0xB300).setV 0 0x04)).map (·.pc) = some 0x304 := by decide
/-- V-CF-18: not reduced modulo 4096, and the next fetch faults. -/
theorem test_jpV0_above_memory : (after ((start 0xBFFF).setV 0 0xFF)).map (·.pc) = some 0x10FE ∧
    condition ((start 0xBFFF).setPc 0x10FE) = some (.memoryOutOfRange 0x10FE) := by decide
/-- V-CF-19: the last address an instruction can be fetched from. -/
theorem test_fetch_at_the_top :
    (after ((State.reset.setPc 0xFFE).withFetchWord 16 0x1234)).map (·.pc) = some 0x234 := by decide
/-- V-ENC-9: a fetch at an odd `pc`. -/
theorem test_fetch_odd : (after ((withBytes State.reset 0x200 [0x12, 0x03, 0x00, 0x6B, 0x77, 0x00]).setPc 0x203)).map
    (fun t => (t.getV 11, t.pc)) = some (0x77, 0x205) := by decide

/-! ### ALU (vectors 2.3) -/

/-- V-ALU-27. -/
theorem test_ldImm : (after (start 0x6A2C)).map (fun t => (t.getV 10, t.pc)) = some (0x2C, 0x202) := by decide
/-- V-ALU-28: no flag. -/
theorem test_addImm : (after (((start 0x7103).setV 1 0xFE).setV 15 0x07)).map (fun t => (t.getV 1, t.getV 15)) =
    some (0x01, 0x07) := by decide
/-- V-ALU-26. -/
theorem test_ldReg : alu 0x8010 0x12 0x33 = some (0x33, 0, 0x202) := by decide
/-- V-ALU-23. -/
theorem test_orReg : alu 0x8011 0x0F 0xF1 = some (0xFF, 0, 0x202) := by decide
/-- V-ALU-30: VF is kept. -/
theorem test_orReg_keeps_VF : (after ((((start 0x8011).setV 0 0x0F).setV 1 0xF1).setV 15 0x07)).map
    (fun t => (t.getV 0, t.getV 15)) = some (0xFF, 0x07) := by decide
/-- V-ALU-24. -/
theorem test_andReg : alu 0x8012 0x3C 0x0F = some (0x0C, 0, 0x202) := by decide
/-- V-ALU-25. -/
theorem test_xorReg : alu 0x8013 0xFF 0x0F = some (0xF0, 0, 0x202) := by decide
/-- V-ALU-1 (S4), V-ALU-2. -/
theorem test_addReg : alu 0x8014 0xFF 0x01 = some (0x00, 1, 0x202) ∧
    alu 0x8014 0xFF 0x00 = some (0xFF, 0, 0x202) := by decide
/-- V-VF-1, V-VF-2: with `x = 15` the carry stays. -/
theorem test_addReg_VF : (after (((start 0x8F14).setV 15 0xF0).setV 1 0x20)).map (·.getV 15) = some 0x01 ∧
    (after (((start 0x8F14).setV 15 0x10).setV 1 0x20)).map (·.getV 15) = some 0x00 := by decide
/-- V-ALU-6 (S5), V-ALU-8: equal operands give flag 0. -/
theorem test_subReg : alu 0x8015 0x04 0x05 = some (0xFF, 0, 0x202) ∧
    alu 0x8015 0x05 0x05 = some (0x00, 0, 0x202) := by decide
/-- V-VF-5, V-VF-7: the result wins, and the old VF is the operand. -/
theorem test_subReg_VF : (after (((start 0x8F15).setV 15 0x10).setV 1 0x03)).map (·.getV 15) = some 0x0D ∧
    (after (((start 0x80F5).setV 0 0x10).setV 15 0x03)).map (fun t => (t.getV 0, t.getV 15)) =
      some (0x0D, 0x01) := by decide
/-- V-ALU-11, V-ALU-12. -/
theorem test_subnReg : alu 0x8017 0x04 0x05 = some (0x01, 1, 0x202) ∧
    alu 0x8017 0x05 0x04 = some (0xFF, 0, 0x202) := by decide
/-- V-VF-9, V-VF-10. -/
theorem test_subnReg_VF : (after (((start 0x8F17).setV 15 0x03).setV 1 0x10)).map (·.getV 15) = some 0x0D ∧
    (after (((start 0x80F7).setV 0 0x03).setV 15 0x10)).map (fun t => (t.getV 0, t.getV 15)) =
      some (0x0D, 0x01) := by decide
/-- V-ALU-15: `V1` is ignored. -/
theorem test_shr : alu 0x8016 0x05 0xAA = some (0x02, 1, 0x202) := by decide
/-- V-VF-11. -/
theorem test_shr_VF : (after ((start 0x8F06).setV 15 0x07)).map (·.getV 15) = some 0x03 := by decide
/-- V-ALU-19: `V1` is ignored. -/
theorem test_shl : alu 0x801E 0x81 0xAA = some (0x02, 1, 0x202) := by decide
/-- V-VF-12. -/
theorem test_shl_VF : (after ((start 0x8F0E).setV 15 0x81)).map (·.getV 15) = some 0x02 := by decide
/-- V-ALU-32, V-ALU-34: what holds whatever byte is drawn. -/
theorem test_rnd (drawn : Byte) : drawn &&& 0x00 = 0 ∧ (drawn &&& 0xF0) &&& 0x0F = 0 := by
  constructor
  · simp
  · rw [BitVec.and_assoc]; simp
/-- R131: the draw counter moves on. -/
theorem test_rnd_counts : (after (start 0xC1FF)).map (fun t => (t.rndCount, t.pc)) = some (1, 0x202) := by decide

/-! ### Address register and memory (vectors 2.4) -/

/-- V-MEM-1. -/
theorem test_ldI : (after (start 0xA300)).map (·.I) = some 0x0300 := by decide
/-- V-MEM-2, V-MEM-3. -/
theorem test_addIVx : (after (((start 0xF21E).setI 0x0FFE).setV 2 0x05)).map (fun t => (t.I, t.getV 15)) =
      some (0x1003, 0) ∧
    (after (((start 0xF21E).setI 0xFFFF).setV 2 0x02)).map (·.I) = some 0x0001 := by decide
/-- V-MEM-5: the glyph of F. -/
theorem test_ldFVx : (after ((start 0xF029).setV 0 0x0F)).map (fun t => (t.I, loadBytes t.mem 0x4B 5)) =
    some (0x004B, [0xF0, 0x80, 0xF0, 0x80, 0x80]) := by decide
/-- V-MEM-6. -/
theorem test_ldFVx_above : condition ((start 0xF029).setV 0 0x10) = some (.operandOutOfDomain 0x10) := by decide
/-- V-MEM-7 with 0xEA. -/
theorem test_ldBVx : (after (((start 0xF033).setI 0x300).setV 0 0xEA)).map (fun t => (loadBytes t.mem 0x300 3, t.I)) =
    some ([2, 3, 4], 0x300) := by decide
/-- V-MEM-8, V-MEM-9. -/
theorem test_ldBVx_at_the_top : (after ((start 0xF033).setI 0xFFD)).map (·.pc) = some 0x202 ∧
    condition ((start 0xF033).setI 0xFFE) = some (.memoryOutOfRange 0x1000) := by decide
/-- V-MEM-10. -/
theorem test_ldMemVx : (after (((((start 0xF155).setI 0x400).setV 0 0x11).setV 1 0x22).setV 2 0x33)).map
    (fun t => (loadBytes t.mem 0x400 3, t.I)) = some ([0x11, 0x22, 0x00], 0x400) := by decide
/-- V-MEM-11, V-MEM-12. -/
theorem test_ldMemVx_at_the_top : (after ((start 0xF755).setI 0xFF8)).map (·.pc) = some 0x202 ∧
    condition ((start 0xF855).setI 0xFF8) = some (.memoryOutOfRange 0x1000) := by decide
/-- V-MEM-13. -/
theorem test_ldVxMem : (after (((withBytes (start 0xF265) 0x300 [2, 3, 4]).setI 0x300).setV 3 0x99)).map
    (fun t => (t.getV 0, t.getV 1, t.getV 2, t.getV 3, t.I)) = some (2, 3, 4, 0x99, 0x300) := by decide
/-- V-MEM-14, V-MEM-15: no wrap to address 0. -/
theorem test_ldVxMem_above : condition ((start 0xF065).setI 0x1003) = some (.memoryOutOfRange 0x1003) ∧
    condition ((start 0xF165).setI 0xFFFF) = some (.memoryOutOfRange 0xFFFF) := by decide
/-- The canonical form: storing what an address holds after reset leaves no cell. -/
theorem test_store_of_reset_byte : memWrite [(0x10, 0x55)] 0x10 (resetByte 0x10) = [] := by decide

/-! ### Display (vectors 2.5) -/

/-- V-DRW-1: wraps at both edges. -/
theorem test_drw : (after ((((withBytes (start 0xD011) 0x300 [0xC0]).setI 0x300).setV 0 63).setV 1 31)).map
    (fun t => (t.disp, t.getV 15)) = some (setPixel (lit 63 31) 31 0 true, 0) := by decide
/-- V-DRW-3: a lit pixel goes out. -/
theorem test_drw_collision :
    (after (((withBytes (start 0xD011) 0x300 [0x80]).setI 0x300).setDisp (lit 0 0))).map
      (fun t => (t.disp, t.getV 15)) = some (blankDisplay, 1) := by decide
/-- V-CLS-1. -/
theorem test_cls : (after (((start 0x00E0).setDisp (lit 3 2)).setV 15 1)).map (fun t => (t.disp, t.getV 15)) =
    some (blankDisplay, 1) := by decide

/-! ### Keys, timers and the host's operations (vectors 2.6) -/

/-- V-KEY-1, V-KEY-2. -/
theorem test_skp : (after (((start 0xE19E).setKeys 0x0020).setV 1 5)).map (·.pc) = some 0x204 ∧
    (after (((start 0xE19E).setKeys 0x0020).setV 1 4)).map (·.pc) = some 0x202 := by decide
/-- V-KEY-5. -/
theorem test_skp_above : condition ((start 0xE09E).setV 0 0x10) = some (.operandOutOfDomain 0x10) := by decide
/-- V-KEY-3, V-KEY-4. -/
theorem test_sknp : (after (((start 0xE1A1).setKeys 0x0020).setV 1 5)).map (·.pc) = some 0x202 ∧
    (after (((start 0xE1A1).setKeys 0x0020).setV 1 4)).map (·.pc) = some 0x204 := by decide
/-- V-KEY-5. -/
theorem test_sknp_above : condition ((start 0xE0A1).setV 0 0x10) = some (.operandOutOfDomain 0x10) := by decide
/-- V-KEY-6. -/
theorem test_ldVxK_waits : after (start 0xF30A) = some (start 0xF30A) := by decide
/-- V-KEY-7: the key stored is no longer held. -/
theorem test_ldVxK : (after (keyUp 5 (keyDown 5 (keyDown 3 (start 0xF30A))))).map
    (fun t => (t.keys, t.getV 3, t.pc)) = some (0x0008, 0x05, 0x202) := by decide
/-- V-TMR-1. -/
theorem test_ldDTVx : (after ((start 0xFA15).setV 10 3)).map (·.DT) = some 3 := by decide
/-- V-TMR-2. -/
theorem test_ldVxDT : (after ((start 0xF407).setDT 0x1E)).map (·.getV 4) = some 0x1E := by decide
/-- V-TMR-3. -/
theorem test_ldSTVx : (after ((start 0xF218).setV 2 0x10)).map (·.ST) = some 0x10 := by decide
/-- V-KEY-8. -/
theorem test_keys : (fun s => (s.keys, s.lastKey)) (keyUp 7 (keyDown 7 (keyDown 7 State.reset))) = (0, 7) := by decide
/-- V-TMR-5, and V-TMR-4's floor. -/
theorem test_tick : (fun s => (s.DT, s.ST)) (tick ((State.reset.setDT 0xFF).setST 1)) = (0xFE, 0) ∧
    (fun s => (s.DT, s.ST)) (tick State.reset) = (0, 0) := by decide
/-- S2, R218. -/
theorem test_load : (load [0x12, 0x34] State.reset).map (fun t => (t.byteAt 0x200, t.byteAt 0x201, (fetch t).toOption)) =
    some (0x12, 0x34, some 0x1234) := by decide
/-- R186, R180: the answer of a step that raises a condition, and its code and recorded value. -/
theorem test_condition_reported : (perform .step (start 0x5123)).map (·.2) =
      some (.stepped (some (.unmatchedInstruction 0x5123))) ∧
    stepCode (some (.unmatchedInstruction 0x5123)) = (1, some 0x5123) ∧ stepCode none = (0, none) := by decide
/-- R154: the display read answers the grid, a lit pixel included. -/
theorem test_readDisplay : (perform .readDisplay (State.reset.setDisp (lit 3 2))).map (·.2) =
    some (.grid (lit 3 2)) := by decide
/-- R21: "-1 is `0b11111`". -/
theorem test_sp_encoding : Sp.toBits .empty = 0b11111 ∧ Sp.toBits (.top 15) = 0b01111 := by decide

/-! ### Witnesses: concrete inputs that meet the hypotheses of each obligation -/

/-- DecodeOfEncodeIsTheInstruction, EncodeOfDecodeIsTheBytes. -/
theorem witness_decode_encode : (Instr.sys 0x0EF).wellFormed = true ∧ (Instr.drw 15 15 15).wellFormed = true ∧
    decode (0xDF :: 0xFF :: [0x00]) = .ok (.drw 15 15 15, [0x00]) := by decide

/-- OnlyClsAndRetMatchTwoRows: rows 1 and 2 match 0x00E0, rows 1 and 3 match 0x00EE. -/
theorem witness_two_rows : (⟨0, by decide⟩ : Fin opcodeTable.length) ≠ ⟨1, by decide⟩ ∧
    (⟨0, by decide⟩ : Fin opcodeTable.length) ≠ ⟨2, by decide⟩ ∧
    (opcodeTable[0]).matchesMasked 0x00E0 = true ∧ (opcodeTable[1]).matchesMasked 0x00E0 = true ∧
    (opcodeTable[0]).matchesMasked 0x00EE = true ∧ (opcodeTable[2]).matchesMasked 0x00EE = true := by decide

/-- IllegalWordsAreExactlyThoseListed: each clause has a word (V-ENC-4). -/
theorem witness_illegal_words : decodeWord 0x5001 = none ∧ decodeWord 0x9FFF = none ∧ decodeWord 0x800D = none ∧
    decodeWord 0xEFFF = none ∧ decodeWord 0xF066 = none := by decide

/-- StepRunsTheDecodedInstruction: `pc` at the top of its range, with a legal and with an illegal word there. -/
theorem witness_step :
    ((State.reset.setPc 0xFFE).withFetchWord 16 0x1234).pc.toNat ≤ 0xFFE ∧
    decodeWord (wordAtPc ((State.reset.setPc 0xFFE).withFetchWord 16 0x1234)) = some (.jp 0x234) ∧
    decodeWord (wordAtPc ((State.reset.setPc 0xFFE).withFetchWord 16 0x5123)) = none := by decide

/-- FetchAboveTheTopFaults: the one address of the first clause, the first and last of the second. -/
theorem witness_fetch_above : (State.reset.setPc 0xFFF).pc.toNat = 0xFFF ∧
    0xFFF < (State.reset.setPc 0x1000).pc.toNat ∧ 0xFFF < (State.reset.setPc 0xFFFF).pc.toNat := by decide

/-- EffectsCompleteOrRaiseTheirOneCondition: each clause, at the edge of each check. -/
theorem witness_effects :
    effectCondition .ret State.reset = some (.stackUnderflow 0x200) ∧
    effectCondition (.call 0x300) (State.reset.setSp (.top 15)) = some (.stackOverflow 0x200) ∧
    effectCondition (.call 0x300) (State.reset.setSp (.top 14)) = none ∧
    effectCondition (.skp 0) (State.reset.setV 0 16) = some (.operandOutOfDomain 16) ∧
    effectCondition (.skp 0) (State.reset.setV 0 15) = none ∧
    effectCondition (.ldBVx 0) (State.reset.setI 0xFFE) = some (.memoryOutOfRange 0x1000) ∧
    effectCondition (.ldBVx 0) (State.reset.setI 0xFFD) = none ∧
    effectCondition (.drw 0 0 0) (State.reset.setI 0xFFFF) = none := by decide

/-- RangeCheckReportsTheLowestAddress: both sides at the top of memory and above it. -/
theorem witness_range : outOfRange 0xFFF 2 = some 0x1000 ∧ outOfRange 0x1003 1 = some 0x1003 ∧
    outOfRange 0xFFF 1 = none ∧ outOfRange 0xFFFF 0 = none := by decide

/-- ConditionLeavesTheStateAndRepeats, and the second clause of ProgramCounterFollowsItsTable. -/
theorem witness_condition : step (start 0x00EE) = .fault (.stackUnderflow 0x200) ∧
    perform .step (start 0x00EE) = some (start 0x00EE, .stepped (some (.stackUnderflow 0x200))) :=
  ⟨rfl, rfl⟩

/-- ProgramCounterFollowsItsTable: a next state to speak of. -/
theorem witness_pc_table : exec (.jpV0 0xFFF) (State.reset.setV 0 0xFF) =
    .next ((State.reset.setV 0 0xFF).setPc 0x10FE) := rfl

/-- SysOnlyAdvancesPc: the ends of the range and the neighbours of CLS and RET. -/
theorem witness_sys : [0x0000, 0x00DF, 0x00E1, 0x00ED, 0x00EF, 0x0FFF].all
    (fun w : Word => w &&& 0xF000 == 0x0000 && w != 0x00E0 && w != 0x00EE) = true := by decide

/-- JumpSetsPc: a jump to its own address, and the one address from which the next fetch cannot be made.
JumpWithOffsetAddsV0: the least sum above 0xFFE. SkipsOnTwoRegisters: words with a low nibble that is not 0. -/
theorem witness_jump : State.reset.pc.toNat = (0x200 : Addr12).toNat ∧ (0xFFF : Addr12).toNat = 0xFFF ∧
    0xFFE < (0xFFF : Addr12).toNat + (State.reset.getV 0).toNat ∧
    (0x5001 : Word) &&& 0xF000 = 0x5000 ∧ (0x5001 : Word) &&& 0x000F ≠ 0 ∧
    (0x900F : Word) &&& 0xF000 = 0x9000 ∧ (0x900F : Word) &&& 0x000F ≠ 0 := by decide

/-- CallPushesTheReturnAddress, ReturnPopsTheTopSlot, ReturnAfterCallResumes: the empty stack, one slot short of
full, and full. -/
theorem witness_stack :
    (((0 : Fin 16).val : Int) = State.reset.sp.toInt + 1) ∧
    (((15 : Fin 16).val : Int) = (State.reset.setSp (.top 14)).sp.toInt + 1) ∧
    (State.reset.setSp (.top 15)).sp.toInt = 15 ∧ State.reset.sp.toInt = -1 ∧
    ((State.reset.setSp (.top 0)).sp.toInt = ((0 : Fin 16).val : Int)) ∧
    ((State.reset.setSp (.top 15)).sp.toInt = ((15 : Fin 16).val : Int)) ∧
    State.reset.sp.toInt < 15 ∧ (State.reset.setSp (.top 14)).sp.toInt < 15 := by decide

/-- AddRegistersWritesSumThenCarry, SubtractionsWriteFlagThenDifference, ShiftsWriteBitThenResult: the clauses on
`x ≠ 15`, at the last register below VF. RandomAndDrawsOneByte: the clause on `kk = 0`. -/
theorem witness_alu : (14 : RegIdx) ≠ 15 ∧ (0 : Byte) = 0 := by decide

/-- OnlyFlagWritersAndDestinationsChangeVF: LD VE, 1 meets every hypothesis of the first clause, and each
alternative of the second has a next state. -/
theorem witness_VF :
    (∃ t, exec (.ldImm 14 1) State.reset = .next t) ∧
    (∀ x y, Instr.ldImm 14 1 ≠ .addReg x y ∧ Instr.ldImm 14 1 ≠ .subReg x y ∧ Instr.ldImm 14 1 ≠ .subnReg x y ∧
      Instr.ldImm 14 1 ≠ .shr x y ∧ Instr.ldImm 14 1 ≠ .shl x y) ∧
    (∀ x y n, Instr.ldImm 14 1 ≠ .drw x y n) ∧
    (∀ kk, Instr.ldImm 14 1 ≠ .ldImm 15 kk ∧ Instr.ldImm 14 1 ≠ .addImm 15 kk ∧ Instr.ldImm 14 1 ≠ .rnd 15 kk) ∧
    (∀ y, Instr.ldImm 14 1 ≠ .ldReg 15 y ∧ Instr.ldImm 14 1 ≠ .orReg 15 y ∧ Instr.ldImm 14 1 ≠ .andReg 15 y ∧
      Instr.ldImm 14 1 ≠ .xorReg 15 y) ∧
    Instr.ldImm 14 1 ≠ .ldVxDT 15 ∧ Instr.ldImm 14 1 ≠ .ldVxK 15 ∧ Instr.ldImm 14 1 ≠ .ldVxMem 15 ∧
    (∃ t, exec (.addReg 15 0) State.reset = .next t) ∧ (∃ t, exec (.drw 0 0 0) State.reset = .next t) ∧
    (∃ t, exec (.subReg 14 15) State.reset = .next t) ∧ (∃ t, exec (.subnReg 14 15) State.reset = .next t) ∧
    (∃ t, exec (.shr 14 0) State.reset = .next t) ∧ (∃ t, exec (.shl 14 0) State.reset = .next t) := by
  refine ⟨⟨_, rfl⟩, by simp, by simp, fun kk => ⟨?_, by simp, by simp⟩, by simp, by simp, by simp, by simp,
    ⟨_, rfl⟩, ⟨_, rfl⟩, ⟨_, rfl⟩, ⟨_, rfl⟩, ⟨_, rfl⟩, ⟨_, rfl⟩⟩
  intro h
  injection h with h1 _
  exact absurd h1 (by decide)

/-- AddressRegisterSumAndGlyph, SkipsOnAKey: the largest digit or key, and the first value above. -/
theorem witness_domain : ((State.reset.setV 0 15).getV 0).toNat ≤ 15 ∧
    ((State.reset.setV 0 15).getV 0).toNat = (15 : KeyIdx).val ∧
    15 < ((State.reset.setV 0 16).getV 0).toNat := by decide

/-- BcdStoresThreeDigits: the last `I` inside and the first outside. -/
theorem witness_bcd : (State.reset.setI 0xFFD).I.toNat + 2 ≤ 0xFFF ∧
    0xFFF < (State.reset.setI 0xFFE).I.toNat + 2 := by decide

/-- StoreRegistersWritesFromI, LoadRegistersReadsFromI: all 16 registers, at the last `I` inside and the first
outside. -/
theorem witness_store_load : (State.reset.setI 0xFF0).I.toNat + (15 : RegIdx).val ≤ 0xFFF ∧
    0xFFF < (State.reset.setI 0xFF1).I.toNat + (15 : RegIdx).val := by decide

/-- StoreThenLoadGivesRegistersBack: the state after a store (V-MEM-16's `I`), as the state loaded in. -/
theorem witness_store_then_load : ∃ t, exec (.ldMemVx 15) (State.reset.setI 0x50) = .next t ∧
    t.I = (State.reset.setI 0x50).I ∧ t.mem = t.mem := ⟨_, rfl, rfl, rfl⟩

/-- StoredInstructionRunsNext: program P5's store, of 6A 55 to the next instruction's address. -/
theorem witness_stored_instruction :
    ∃ t, exec (.ldMemVx 1) ((((State.reset.setV 0 0x6A).setV 1 0x55).setI 0x208).setPc 0x206) = .next t ∧
      t.pc.toNat = 0x208 ∧ decodeWord (BitVec.ofNat 16 (256 * 0x6A + 0x55)) = some (.ldImm 10 0x55) :=
  ⟨_, rfl, rfl, by decide⟩

/-- DrawSpriteTogglesWhatItCovers: no row and 15 rows; a covered pixel and one that is not. -/
theorem witness_sprite : ([] : List Byte).length ≤ 15 ∧ (List.replicate 15 (0xFF : Byte)).length ≤ 15 ∧
    Covers [0xC0] 63 31 31 0 ∧ ¬ Covers [] 63 31 31 0 :=
  ⟨by decide, by decide, ⟨⟨0, by decide⟩, 1, by decide, by decide, by decide⟩, fun ⟨row, _⟩ => row.elim0⟩

/-- DrawInstruction: `n = 0` above memory, the last byte of memory, and one byte past it. -/
theorem witness_draw : (0 : Count).val = 0 ∧ (State.reset.setI 0xFFF).I.toNat + ((1 : Count).val - 1) ≤ 0xFFF ∧
    0 < (2 : Count).val ∧ 0xFFF < (State.reset.setI 0xFFF).I.toNat + ((2 : Count).val - 1) := by decide

/-- DrawingTwiceRestoresTheDisplay: 15 rows at the top of memory, and no row above memory; a blank display; a form
without VF drawn again at once, and one with VF as a coordinate drawn again with VF put back. -/
theorem witness_draw_twice :
    (State.reset.setI 0xFF1).I.toNat + (15 : Count).val ≤ 0x1000 ∧ (0 : Count).val = 0 ∧
    (∀ (r : Fin 32) (c : Fin 64), pixel State.reset.disp r c = false) ∧
    (∃ t t' : State, exec (.drw 13 14 0) State.reset = .next t ∧ (13 : RegIdx) ≠ 15 ∧ (14 : RegIdx) ≠ 15 ∧ t' = t) ∧
    ∃ t t' : State, exec (.drw 15 0 0) State.reset = .next t ∧ t' = t.setV 15 (State.reset.getV 15) :=
  ⟨by decide, by decide, by intro r c; simp [pixel, State.reset, blankDisplay],
    ⟨_, _, rfl, by decide, by decide, rfl⟩, ⟨_, _, rfl, rfl⟩⟩

/-- WaitForKey, WaitingLastsUntilAKeyIsPressed: no key down at LD V3,K, and a key down. -/
theorem witness_wait : (start 0xF30A).keys = 0 ∧ (start 0xF30A).pc.toNat ≤ 0xFFE ∧
    decodeWord (wordAtPc (start 0xF30A)) = some (.ldVxK 3) ∧ (keyDown 15 (start 0xF30A)).keys ≠ 0 := by decide

/-- StepsDoNotCountTimersDown: a step of an instruction that is neither LD DT,Vx nor LD ST,Vx. -/
theorem witness_no_count : (∃ t, step ((start 0x6A03).setDT 5) = .next t) ∧
    ∀ x, decodeWord (wordAtPc ((start 0x6A03).setDT 5)) ≠ some (.ldDTVx x) ∧
      decodeWord (wordAtPc ((start 0x6A03).setDT 5)) ≠ some (.ldSTVx x) :=
  ⟨⟨_, rfl⟩, by decide⟩

/-- LoadWritesOnlyTheImage, LoadThenFetchGivesTheFirstWord: the longest image, and one byte more. -/
theorem witness_load : (List.replicate 3584 (0 : Byte)).length ≤ 3584 ∧
    3584 < (List.replicate 3585 (0 : Byte)).length ∧ (List.replicate 3582 (0 : Byte)).length + 2 ≤ 3584 ∧
    State.reset.pc = 0x200 := by
  simp only [List.length_replicate]; decide

/-- LastKeyIsNotReadBeforeAKeyDown: no key down, a step that completes and one that raises a condition. -/
theorem witness_lastKey : State.reset.keys = 0 ∧ (∃ t, step (start 0xF30A) = .next t) ∧
    step (start 0x00EE) = .fault (.stackUnderflow 0x200) := ⟨rfl, ⟨_, rfl⟩, rfl⟩

/-- SlotsAboveTheTopAreNeverRead: two states that differ in slot 0 alone, with the stack empty. -/
theorem witness_slots : AgreeBelowTop (start 0x2300) ((start 0x2300).setSlot 0 0x777) ∧
    (start 0x2300).stack ≠ ((start 0x2300).setSlot 0 0x777).stack ∧ (∃ t, step (start 0x2300) = .next t) ∧
    AgreeBelowTop (start 0x00EE) ((start 0x00EE).setSlot 0 0x777) ∧
    step (start 0x00EE) = .fault (.stackUnderflow 0x200) :=
  ⟨⟨rfl, by decide⟩, by decide, ⟨_, rfl⟩, ⟨rfl, by decide⟩, rfl⟩

/-- EveryStepKeepsTheInvariant, EverySessionKeepsTheInvariant: a state that meets the invariant and is not the
reset state, its step, and a session of every operation. -/
theorem witness_invariant : Inv (start 0x2300) ∧ (∃ t, step (start 0x2300) = .next t) ∧
    ∃ t, session [.reset, .load [0x23, 0x00], .keyDown 15, .step, .tick, .keyUp 15, .isKeyDown 0, .readDisplay]
      (start 0x2300) = some t :=
  ⟨⟨by decide, by decide, by decide⟩, ⟨_, rfl⟩, ⟨_, rfl⟩⟩

/-- DisplayIsReadAndNotWrittenByTheHost: an operation that is neither a step nor a reset, with a pixel lit. -/
theorem witness_display_read : Operation.tick ≠ .step ∧ Operation.tick ≠ .reset ∧
    (∃ t a, perform .tick (State.reset.setDisp (lit 3 2)) = some (t, a)) ∧
    pixel (State.reset.setDisp (lit 3 2)).disp 2 3 = true :=
  ⟨by decide, by decide, ⟨_, _, rfl⟩, by decide⟩

/-- CanonicalMemoriesThatReadAlikeAreEqual: two stores in either order. -/
theorem witness_memories : Memory.wf (memWrite (memWrite [] 0xFFF 7) 0x200 9) ∧
    Memory.wf (memWrite (memWrite [] 0x200 9) 0xFFF 7) ∧
    ∀ a, a < 0x1000 → memRead (memWrite (memWrite [] 0xFFF 7) 0x200 9) a =
      memRead (memWrite (memWrite [] 0x200 9) 0xFFF 7) a :=
  ⟨by decide, by decide, fun a _ => by simp only [memRead_memWrite]; split <;> split <;> first | rfl | omega⟩

end Sys2Proof.Tests
end

section
/-! The program counter after an instruction (spec/10_state.md R17): one lemma for each way in which an effect
leaves `pc`, and one for a step that raises a condition. -/

namespace Sys2Proof.Machine

variable {s t u : State}

/-- R17's row `pc + 2`, for an effect that advances once its other writes, which keep `pc`, are made. -/
theorem pc_toNat_of_next_advance (h : (.next u.advance : Result) = .next t) (hu : u.pc = s.pc) :
    t.pc.toNat = (s.pc.toNat + 2) % 65536 := by
  cases h
  simp [hu, BitVec.toNat_add]

/-- R17's rows for SE and SKP, which skip when `c` holds. -/
theorem pc_toNat_of_next_skipIf {c : Bool} (h : (.next (s.skipIf c) : Result) = .next t) :
    t.pc.toNat = if c then (s.pc.toNat + 4) % 65536 else (s.pc.toNat + 2) % 65536 := by
  cases h
  cases c <;> simp [BitVec.toNat_add]

/-- R17's rows for SNE and SKNP, which skip when `c` does not hold. -/
theorem pc_toNat_of_next_skipIf_not {c : Bool} (h : (.next (s.skipIf (!c)) : Result) = .next t) :
    t.pc.toNat = if c then (s.pc.toNat + 2) % 65536 else (s.pc.toNat + 4) % 65536 := by
  cases c <;> simpa using pc_toNat_of_next_skipIf h

/-- R108: a 12-bit address and a byte never carry out of `pc`. -/
theorem addrOperand_add_byteOperand_toNat (nnn : Addr12) (v : Byte) :
    (addrOperand nnn + byteOperand v).toNat = nnn.toNat + v.toNat := by
  have hn := nnn.isLt
  have hv := v.isLt
  rw [BitVec.toNat_add, addrOperand_toNat, byteOperand_toNat]
  omega

theorem exec_ret_next_pc (h : exec .ret s = .next t) : t.pc.toNat = nextPc .ret s := by
  cases hsp : s.sp with
  | empty => simp [exec_ret_empty s hsp] at h
  | top k =>
    rw [exec_ret_top s k hsp] at h
    cases h
    simp [nextPc, hsp]

theorem exec_call_next_pc {nnn : Addr12} (h : exec (.call nnn) s = .next t) : t.pc.toNat = nnn.toNat := by
  cases hp : s.sp.pushed with
  | none => simp [exec_call_full s nnn hp] at h
  | some k =>
    rw [exec_call_room s nnn k hp] at h
    cases h
    exact addrOperand_toNat nnn

theorem exec_ldVxK_next_pc {x : RegIdx} (h : exec (.ldVxK x) s = .next t) :
    t.pc.toNat = nextPc (.ldVxK x) s := by
  by_cases hk : s.keys = 0
  · rw [exec_ldVxK_none s x hk] at h
    cases h
    simp [nextPc, hk]
  · rw [exec_ldVxK_some s x hk] at h
    exact (pc_toNat_of_next_advance h (s.setV_pc x _)).trans (if_neg hk).symm

/-- The whole of R17's table, by the instruction. -/
theorem exec_next_pc {i : Instr} (h : exec i s = .next t) : t.pc.toNat = nextPc i s := by
  cases i with
  | sys | cls | ldImm | addImm | ldReg | orReg | andReg | xorReg | addReg | subReg | subnReg | shr | shl
  | ldI | rnd | ldVxDT | ldDTVx | ldSTVx | addIVx => exact pc_toNat_of_next_advance h rfl
  | seImm | seReg => simpa [nextPc] using pc_toNat_of_next_skipIf h
  | sneImm | sneReg => simpa [nextPc] using pc_toNat_of_next_skipIf_not h
  | jp nnn => cases h; exact addrOperand_toNat nnn
  | jpV0 nnn => cases h; exact addrOperand_add_byteOperand_toNat nnn (s.getV 0)
  | ret => exact exec_ret_next_pc h
  | call => exact exec_call_next_pc h
  | ldVxK => exact exec_ldVxK_next_pc h
  | skp =>
    simp only [exec, execSkp, withIndex_eq_next] at h
    obtain ⟨_, h⟩ := h
    exact pc_toNat_of_next_skipIf h
  | sknp =>
    simp only [exec, execSknp, withIndex_eq_next] at h
    obtain ⟨_, h⟩ := h
    exact pc_toNat_of_next_skipIf_not h
  | ldFVx =>
    simp only [exec, execLdFVx, withIndex_eq_next] at h
    obtain ⟨_, h⟩ := h
    exact pc_toNat_of_next_advance h rfl
  | drw | ldBVx | ldMemVx =>
    obtain ⟨_, h⟩ := (withRange_eq_next _ _ _ t).mp h
    exact pc_toNat_of_next_advance h rfl
  | ldVxMem =>
    obtain ⟨_, h⟩ := (withRange_eq_next _ _ _ t).mp h
    exact pc_toNat_of_next_advance h (s.loadRegs_pc _ _)

/-- R186: a step that raises a condition reports it and leaves the state. -/
theorem perform_step_of_fault {r : Fault} (h : step s = .fault r) :
    perform .step s = some (s, .stepped (some r)) := by
  simp only [perform, h]

/-- Settles O13: by the table's row for each instruction, and by the unchanged state where a step raises a
condition. -/
theorem programCounterFollowsItsTable : Obligations.ProgramCounterFollowsItsTable := by
  unfold Obligations.ProgramCounterFollowsItsTable
  refine ⟨fun i s t h => exec_next_pc h, fun s t r a hf hp => ?_⟩
  rw [perform_step_of_fault hf] at hp
  cases hp
  rfl

end Sys2Proof.Machine
end

section
/-! A step whose fetch succeeds (spec/20_memory.md R40, R43; spec/30_encoding.md R72): the word at `pc` as a number,
and the step by what that word decodes to. -/

namespace Sys2Proof.Machine

variable {s : State}

/-- R40's big-endian word: two bytes never carry out of 16 bits. -/
theorem wordAtPc_toNat (s : State) : (wordAtPc s).toNat =
    256 * (s.byteAt s.pc.toNat).toNat + (s.byteAt (s.pc.toNat + 1)).toNat := by
  rw [wordAtPc_eq, wordOfBytes_toNat]

theorem step_eq_exec_of_decodeWord_eq_some {i : Instr} (hpc : s.pc.toNat ≤ 0xFFE)
    (hd : decodeWord (wordAtPc s) = some i) : step s = exec i s := by
  obtain ⟨hout, -⟩ | ⟨-, hnone, -⟩ | ⟨-, j, hj, hstep⟩ := step_cases s
  · omega
  · simp [hd] at hnone
  · cases hd.symm.trans hj
    exact hstep

theorem step_eq_fault_of_decodeWord_eq_none (hpc : s.pc.toNat ≤ 0xFFE)
    (hd : decodeWord (wordAtPc s) = none) :
    step s = .fault (.unmatchedInstruction (wordAtPc s)) := by
  obtain ⟨hout, -⟩ | ⟨-, -, hstep⟩ | ⟨-, j, hj, -⟩ := step_cases s
  · omega
  · exact hstep
  · simp [hd] at hj

/-- Settles O7: the fetched word is the two bytes joined, and of the ways a step can go only the one its decode
names is left once `pc` is in range. -/
theorem stepRunsTheDecodedInstruction : Obligations.StepRunsTheDecodedInstruction := by
  unfold Obligations.StepRunsTheDecodedInstruction
  intro s hpc
  exact ⟨wordAtPc_toNat s, fun _ => step_eq_exec_of_decodeWord_eq_some hpc,
    step_eq_fault_of_decodeWord_eq_none hpc⟩

end Sys2Proof.Machine
end

section
/-! Encodings as rows of the table (spec/30_encoding.md R64 to R66): a row whose pattern has a top nibble decodes
every word it matches, and which rows can match a word is read off the word's own bits. -/

namespace Sys2Proof.Machine

open Sys2Proof.Laws.RowOfEncoding (row_mem)

/-- The words 0x00E0 and 0x00EE, which the exact scan takes first, match no row with a top nibble other than 0. -/
theorem encodes_of_row {d : Descriptor} (hd : d ∈ opcodeTable) (htop : 0x1000 ≤ d.pattern.toNat) :
    Encodes d.pattern d.mask d.build := by
  intro w hw
  have hle : d.pattern.toNat ≤ w.toNat := by
    rw [← hw, BitVec.toNat_and]
    exact Nat.and_le_left
  refine decodeWord_of_row d w hd hw ?_ ?_
  · rintro rfl
    exact absurd (htop.trans hle) (by decide)
  · rintro rfl
    exact absurd (htop.trans hle) (by decide)

theorem encodes_jp : Encodes 0x1000 0xF000 (fun w => .jp (fieldNNN w)) :=
  encodes_of_row (row_mem 3 (by decide)) (by decide)

theorem encodes_call : Encodes 0x2000 0xF000 (fun w => .call (fieldNNN w)) :=
  encodes_of_row (row_mem 4 (by decide)) (by decide)

theorem encodes_seImm : Encodes 0x3000 0xF000 (fun w => .seImm (fieldX w) (fieldKK w)) :=
  encodes_of_row (row_mem 5 (by decide)) (by decide)

theorem encodes_sneImm : Encodes 0x4000 0xF000 (fun w => .sneImm (fieldX w) (fieldKK w)) :=
  encodes_of_row (row_mem 6 (by decide)) (by decide)

theorem encodes_seReg : Encodes 0x5000 0xF00F (fun w => .seReg (fieldX w) (fieldY w)) :=
  encodes_of_row (row_mem 7 (by decide)) (by decide)

theorem encodes_sneReg : Encodes 0x9000 0xF00F (fun w => .sneReg (fieldX w) (fieldY w)) :=
  encodes_of_row (row_mem 8 (by decide)) (by decide)

theorem encodes_jpV0 : Encodes 0xB000 0xF000 (fun w => .jpV0 (fieldNNN w)) :=
  encodes_of_row (row_mem 21 (by decide)) (by decide)

/-- RET's row has no variable bits, so it matches its own word alone. -/
theorem encodes_ret : Encodes 0x00EE 0xFFFF (fun _ => .ret) := by
  intro w hw
  rw [and_FFFF] at hw
  rw [hw, decodeWord_ret]

/-- A word and a row it matches agree on any bits the row fixes. -/
theorem pattern_and_of_match {d : Descriptor} {w m : Word} (hw : w &&& d.mask = d.pattern)
    (hm : d.mask &&& m = m) : d.pattern &&& m = w &&& m := by
  rw [← hw, BitVec.and_assoc, hm]

/-- Every row fixes the top nibble. -/
theorem opcodeTable_fixes_topNibble : ∀ d ∈ opcodeTable, d.mask &&& 0xF000 = 0xF000 := by
  decide

/-- R66: the rows with top nibble 5 or 9 fix the low nibble, at 0. -/
theorem opcodeTable_register_skip_rows : ∀ d ∈ opcodeTable,
    d.pattern &&& 0xF000 = 0x5000 ∨ d.pattern &&& 0xF000 = 0x9000 →
      d.mask &&& 0x000F = 0x000F ∧ d.pattern &&& 0x000F = 0 := by
  decide

/-- R106, R107: with top nibble 5 or 9 a non-zero low nibble is unmatched. -/
theorem decodeWord_register_skip_eq_none {w : Word} (htop : w &&& 0xF000 = 0x5000 ∨ w &&& 0xF000 = 0x9000)
    (hlow : w &&& 0x000F ≠ 0) : decodeWord w = none := by
  refine (decodeWord_eq_none w).mpr fun d hd hw => ?_
  rw [← pattern_and_of_match hw (opcodeTable_fixes_topNibble d hd)] at htop
  obtain ⟨hmask, hzero⟩ := opcodeTable_register_skip_rows d hd htop
  exact hlow ((pattern_and_of_match hw hmask).symm.trans hzero)

end Sys2Proof.Machine
end

section
/-! Control flow (spec/40_control_flow.md R100 to R108): SYS, JP, JP V0, CALL, RET and the four register skips. -/

namespace Sys2Proof.Machine

variable {s : State}

/-- R44 for the fetch, as a rule for the step. -/
theorem step_eq_fault_of_pc_above (hpc : 0xFFE < s.pc.toNat) :
    step s = .fault (.memoryOutOfRange (max s.pc.toNat 0x1000)) := by
  obtain ⟨-, hstep⟩ | ⟨hin, -⟩ | ⟨hin, -⟩ := step_cases s
  · exact hstep
  · omega
  · omega

theorem setPc_eq_self {a : Word} (h : s.pc.toNat = a.toNat) : s.setPc a = s := by
  rw [← BitVec.eq_of_toNat_eq h]
  rfl

/-! ### SYS and the jumps -/

/-- Settles O14: the first row matches every such word, and the effect is `advance` alone. -/
theorem sysOnlyAdvancesPc : Obligations.SysOnlyAdvancesPc := by
  unfold Obligations.SysOnlyAdvancesPc
  refine ⟨fun w hw hcls hret => ?_, fun nnn s => ⟨_, rfl, s.setPc_pc _, keeps_setPc nothing s _⟩⟩
  exact decodeWord_of_row _ w (Laws.RowOfEncoding.row_mem 0 (by decide)) hw hcls hret

/-- Settles O15: the effect sets `pc` alone, so a self-jump sets it to what it was, and from 0xFFF the next fetch
is out of range. -/
theorem jumpSetsPc : Obligations.JumpSetsPc := by
  unfold Obligations.JumpSetsPc
  refine ⟨encodes_jp, fun nnn s => ⟨_, rfl, addrOperand_toNat nnn, keeps_setPc nothing s _, fun hself => ?_, ?_⟩⟩
  · exact setPc_eq_self (hself.trans (addrOperand_toNat nnn).symm)
  · rintro rfl
    have habove : 0xFFE < (addrOperand 0xFFF).toNat := by decide
    exact step_eq_fault_of_pc_above (s := s.setPc (addrOperand 0xFFF)) habove

/-- Settles O16: the sum of a 12-bit address and a byte is never reduced, and above 0xFFE the next fetch is out of
range. -/
theorem jumpWithOffsetAddsV0 : Obligations.JumpWithOffsetAddsV0 := by
  unfold Obligations.JumpWithOffsetAddsV0
  refine ⟨encodes_jpV0, fun nnn s => ?_⟩
  have hsum := addrOperand_add_byteOperand_toNat nnn (s.getV 0)
  refine ⟨_, rfl, hsum, keeps_setPc nothing s _, fun habove => ?_⟩
  rw [← hsum] at habove ⊢
  exact step_eq_fault_of_pc_above habove

/-! ### The call stack -/

/-- R103 with a slot `k` free above the top (C1, C2, D6). -/
theorem exec_call_pushes (nnn : Addr12) (k : Fin 16) (hk : (k.val : Int) = s.sp.toInt + 1) :
    ∃ t, exec (.call nnn) s = .next t ∧ t.sp.toInt = s.sp.toInt + 1 ∧ t.stack[k.val] = s.pc + 2 ∧
      t.pc.toNat = nnn.toNat ∧ KeepsAllBut (fun p => p = .stackPointer ∨ p = .slot k) s t := by
  refine ⟨_, exec_call_room s nnn k ((pushed_eq_some s.sp k).mpr hk), hk, ?_, addrOperand_toNat nnn, ?_⟩
  · exact ((s.setSp (.top k)).setSlot_get k (s.pc + 2) k).trans (if_pos rfl)
  · exact ((keeps_setSp s _ (.inl rfl)).trans (keeps_setSlot _ k _ (.inr rfl))).trans (keeps_setPc _ _ _)

/-- Settles O17: the slot a CALL fills is the one `sp` names once incremented, and with `sp = 15` there is none. -/
theorem callPushesTheReturnAddress : Obligations.CallPushesTheReturnAddress := by
  unfold Obligations.CallPushesTheReturnAddress
  refine ⟨encodes_call, fun nnn s => ⟨exec_call_pushes nnn, fun hfull => ?_⟩⟩
  exact exec_call_full s nnn ((pushed_eq_none s.sp).mpr hfull)

/-- R101 with slot `k` on top. -/
theorem exec_ret_pops (k : Fin 16) (hk : s.sp.toInt = (k.val : Int)) :
    ∃ t, exec .ret s = .next t ∧ t.pc = s.stack[k.val] ∧ t.sp.toInt = s.sp.toInt - 1 ∧
      KeepsAllBut (fun p => p = .stackPointer) s t := by
  refine ⟨_, exec_ret_top s k ((toInt_eq_top s.sp k).mp hk), rfl, ?_, ?_⟩
  · exact hk ▸ spBelow_toInt k
  · exact (keeps_setPc _ s _).trans (keeps_setSp _ _ rfl)

/-- Settles O18: by RET's two cases, a top slot and the empty stack. -/
theorem returnPopsTheTopSlot : Obligations.ReturnPopsTheTopSlot := by
  unfold Obligations.ReturnPopsTheTopSlot
  refine ⟨encodes_ret, fun s => ⟨exec_ret_pops, fun hempty => ?_⟩⟩
  exact exec_ret_empty s ((toInt_eq_empty s.sp).mp hempty)

/-! ### The skips -/

/-- An instruction that skips when `p` holds (SE), whatever stands at the skipped word. -/
theorem exec_skips_when {i : Instr} (p : Prop) [Decidable p] (h : exec i s = .next (s.skipIf (decide p))) :
    ∃ t, exec i s = .next t ∧ t.pc = (if p then s.pc + 4 else s.pc + 2) ∧ KeepsAllBut nothing s t :=
  ⟨_, h, by simp, keeps_setPc nothing s _⟩

/-- An instruction that skips unless `p` holds (SNE). -/
theorem exec_skips_unless {i : Instr} (p : Prop) [Decidable p] (h : exec i s = .next (s.skipIf (!decide p))) :
    ∃ t, exec i s = .next t ∧ t.pc = (if p then s.pc + 2 else s.pc + 4) ∧ KeepsAllBut nothing s t :=
  ⟨_, h, by simp, keeps_setPc nothing s _⟩

/-- Settles O20: both compare the register with the immediate and only move `pc`. -/
theorem skipsOnAnImmediate : Obligations.SkipsOnAnImmediate := by
  unfold Obligations.SkipsOnAnImmediate
  refine ⟨encodes_seImm, encodes_sneImm, fun x kk s => ⟨?_, ?_⟩⟩
  · exact exec_skips_when (s.getV x = kk) rfl
  · exact exec_skips_unless (s.getV x = kk) rfl

/-- Settles O21: both compare the two registers and only move `pc`; their rows fix a low nibble of 0. -/
theorem skipsOnTwoRegisters : Obligations.SkipsOnTwoRegisters := by
  unfold Obligations.SkipsOnTwoRegisters
  refine ⟨encodes_seReg, encodes_sneReg, fun _ => decodeWord_register_skip_eq_none, fun x y s => ⟨?_, ?_⟩⟩
  · exact exec_skips_when (s.getV x = s.getV y) rfl
  · exact exec_skips_unless (s.getV x = s.getV y) rfl

end Sys2Proof.Machine
end

section
/-! The rows of the table for the register and ALU instructions (spec/30_encoding.md R66, rows 10 to 20). -/

namespace Sys2Proof.Machine

open Sys2Proof.Laws.RowOfEncoding (row_mem)

theorem encodes_ldImm : Encodes 0x6000 0xF000 (fun w => .ldImm (fieldX w) (fieldKK w)) :=
  encodes_of_row (row_mem 9 (by decide)) (by decide)

theorem encodes_addImm : Encodes 0x7000 0xF000 (fun w => .addImm (fieldX w) (fieldKK w)) :=
  encodes_of_row (row_mem 10 (by decide)) (by decide)

theorem encodes_ldReg : Encodes 0x8000 0xF00F (fun w => .ldReg (fieldX w) (fieldY w)) :=
  encodes_of_row (row_mem 11 (by decide)) (by decide)

theorem encodes_orReg : Encodes 0x8001 0xF00F (fun w => .orReg (fieldX w) (fieldY w)) :=
  encodes_of_row (row_mem 12 (by decide)) (by decide)

theorem encodes_andReg : Encodes 0x8002 0xF00F (fun w => .andReg (fieldX w) (fieldY w)) :=
  encodes_of_row (row_mem 13 (by decide)) (by decide)

theorem encodes_xorReg : Encodes 0x8003 0xF00F (fun w => .xorReg (fieldX w) (fieldY w)) :=
  encodes_of_row (row_mem 14 (by decide)) (by decide)

theorem encodes_addReg : Encodes 0x8004 0xF00F (fun w => .addReg (fieldX w) (fieldY w)) :=
  encodes_of_row (row_mem 15 (by decide)) (by decide)

theorem encodes_subReg : Encodes 0x8005 0xF00F (fun w => .subReg (fieldX w) (fieldY w)) :=
  encodes_of_row (row_mem 16 (by decide)) (by decide)

theorem encodes_subnReg : Encodes 0x8007 0xF00F (fun w => .subnReg (fieldX w) (fieldY w)) :=
  encodes_of_row (row_mem 17 (by decide)) (by decide)

theorem encodes_shr : Encodes 0x8006 0xF00F (fun w => .shr (fieldX w) (fieldY w)) :=
  encodes_of_row (row_mem 18 (by decide)) (by decide)

theorem encodes_shl : Encodes 0x800E 0xF00F (fun w => .shl (fieldX w) (fieldY w)) :=
  encodes_of_row (row_mem 19 (by decide)) (by decide)

end Sys2Proof.Machine
end

section
/-! Flags and results of the ALU as numbers (spec/41_alu.md R119): what VF receives, and the byte operations modulo
256. -/

namespace Sys2Proof.Machine

theorem flagByte_carryFlag (a b : Byte) :
    flagByte (carryFlag a b) = if a.toNat + b.toNat > 255 then 1 else 0 := by
  simp [flagByte, carryFlag]

theorem flagByte_greaterFlag (a b : Byte) :
    flagByte (greaterFlag a b) = if a.toNat > b.toNat then 1 else 0 := by
  simp [flagByte, greaterFlag]

theorem flagByte_getLsbD_toNat (a : Byte) (j : Nat) : (flagByte (a.getLsbD j)).toNat = a.toNat / 2 ^ j % 2 := by
  rw [← Nat.toNat_testBit, flagByte_toNat, BitVec.getLsbD]
  cases a.toNat.testBit j <;> rfl

theorem flagByte_shiftedOutRight_toNat (a : Byte) : (flagByte (shiftedOutRight a)).toNat = a.toNat % 2 := by
  rw [shiftedOutRight, flagByte_getLsbD_toNat, Nat.pow_zero, Nat.div_one]

theorem flagByte_shiftedOutLeft_toNat (a : Byte) : (flagByte (shiftedOutLeft a)).toNat = a.toNat / 128 := by
  have ha := a.isLt
  rw [shiftedOutLeft, flagByte_getLsbD_toNat]
  omega

theorem byte_sub_toNat (a b : Byte) : (a - b).toNat = (256 + a.toNat - b.toNat) % 256 := by
  have hb := b.isLt
  rw [BitVec.toNat_sub]
  omega

theorem byte_shiftRight_one_toNat (a : Byte) : (a >>> 1).toNat = a.toNat / 2 := by
  rw [BitVec.toNat_ushiftRight, Nat.shiftRight_one]

theorem byte_shiftLeft_one_toNat (a : Byte) : (a <<< 1).toNat = 2 * a.toNat % 256 := by
  rw [BitVec.toNat_shiftLeft, Nat.shiftLeft_eq, Nat.mul_comm]

end Sys2Proof.Machine
end

section
/-! Register and ALU instructions (spec/41_alu.md R120 to R130). Each effect has one of three shapes: one register
write, a result and then a flag (ADD), a flag and then a result (SUB, SUBN, SHR, SHL). A rule for each shape says
what the last write to a register leaves, with VF as destination (D5), and what the effect keeps. -/

namespace Sys2Proof.Machine

variable {i : Instr} {s : State} {x : RegIdx} {v : Byte} {c : Bool}

/-- An instruction that writes `v` to `V[x]` alone. -/
theorem exec_writes_register (h : exec i s = .next (s.setV x v).advance) :
    ∃ t, exec i s = .next t ∧ t.getV x = v ∧ t.pc = s.pc + 2 ∧ KeepsAllBut (onlyReg x) s t :=
  ⟨_, h, s.setV_getV_self x v, rfl, (keeps_setV (changed := onlyReg x) s x v rfl).trans (keeps_setPc _ _ _)⟩

/-- An instruction that writes the result, then the flag: with `x = 15` the flag stays. -/
theorem exec_writes_result_then_flag (h : exec i s = .next ((s.setV x v).setFlag c).advance) :
    ∃ t, exec i s = .next t ∧ (x ≠ 15 → t.getV x = v) ∧ t.getV 15 = flagByte c ∧ t.pc = s.pc + 2 ∧
      KeepsAllBut (regAndFlag x) s t := by
  refine ⟨_, h, fun hx => ?_, (s.setV x v).setV_getV_self vf _, rfl, ?_⟩
  · exact ((s.setV x v).setV_getV_ne vf _ x hx.symm).trans (s.setV_getV_self x v)
  · exact ((keeps_setV s x v (.inl rfl)).trans (keeps_setV _ vf _ (.inr rfl))).trans (keeps_setPc _ _ _)

/-- An instruction that writes the flag, then the result: with `x = 15` the result stays. -/
theorem exec_writes_flag_then_result (h : exec i s = .next ((s.setFlag c).setV x v).advance) :
    ∃ t, exec i s = .next t ∧ t.getV x = v ∧ (x ≠ 15 → t.getV 15 = flagByte c) ∧ t.pc = s.pc + 2 ∧
      KeepsAllBut (regAndFlag x) s t := by
  refine ⟨_, h, (s.setFlag c).setV_getV_self x v, fun hx => ?_, rfl, ?_⟩
  · exact ((s.setFlag c).setV_getV_ne x v vf hx).trans (s.setV_getV_self vf _)
  · exact ((keeps_setV s vf _ (.inr rfl)).trans (keeps_setV _ x v (.inl rfl))).trans (keeps_setPc _ _ _)

/-! ### One register written -/

/-- Settles O22: each writes `V[x]` alone, and a byte sum is the sum modulo 256. -/
theorem immediateLoadAndAdd : Obligations.ImmediateLoadAndAdd := by
  unfold Obligations.ImmediateLoadAndAdd
  refine ⟨encodes_ldImm, encodes_addImm, fun x kk s => ⟨exec_writes_register rfl, ?_⟩⟩
  obtain ⟨t, ht, hres, hrest⟩ := exec_writes_register (i := .addImm x kk) (s := s) rfl
  exact ⟨t, ht, hres ▸ BitVec.toNat_add _ _, hrest⟩

/-- Settles O23: it writes `V[x]` alone, with the value of `V[y]`. -/
theorem registerCopyGoesFromYToX : Obligations.RegisterCopyGoesFromYToX := by
  unfold Obligations.RegisterCopyGoesFromYToX
  exact ⟨encodes_ldReg, fun x y s => exec_writes_register rfl⟩

/-- Settles O24: each writes `V[x]` alone, and the byte operation works bit by bit. -/
theorem bitwiseInstructions : Obligations.BitwiseInstructions := by
  unfold Obligations.BitwiseInstructions
  refine ⟨encodes_orReg, encodes_andReg, encodes_xorReg, fun x y s => ⟨?_, ?_, ?_⟩⟩
  · obtain ⟨t, ht, hres, hrest⟩ := exec_writes_register (i := .orReg x y) (s := s) rfl
    exact ⟨t, ht, fun j => hres ▸ BitVec.getLsbD_or, hrest⟩
  · obtain ⟨t, ht, hres, hrest⟩ := exec_writes_register (i := .andReg x y) (s := s) rfl
    exact ⟨t, ht, fun j => hres ▸ BitVec.getLsbD_and, hrest⟩
  · obtain ⟨t, ht, hres, hrest⟩ := exec_writes_register (i := .xorReg x y) (s := s) rfl
    exact ⟨t, ht, fun j => hres ▸ BitVec.getLsbD_xor, hrest⟩

/-! ### A result and a flag -/

/-- Settles O25: the flag is written last and from the raw sum, so it stays also with `x = 15`. -/
theorem addRegistersWritesSumThenCarry : Obligations.AddRegistersWritesSumThenCarry := by
  unfold Obligations.AddRegistersWritesSumThenCarry
  refine ⟨encodes_addReg, fun x y s => ?_⟩
  obtain ⟨t, ht, hres, hflag, hrest⟩ := exec_writes_result_then_flag (i := .addReg x y) (s := s) rfl
  refine ⟨t, ht, fun hx => ?_, hflag.trans (flagByte_carryFlag _ _), hrest⟩
  exact hres hx ▸ BitVec.toNat_add _ _

/-- Settles O26: the difference is written last, and the flag is the strict comparison of minuend and
subtrahend. -/
theorem subtractionsWriteFlagThenDifference : Obligations.SubtractionsWriteFlagThenDifference := by
  unfold Obligations.SubtractionsWriteFlagThenDifference
  refine ⟨encodes_subReg, encodes_subnReg, fun x y s => ⟨?_, ?_⟩⟩
  · obtain ⟨t, ht, hres, hflag, hrest⟩ := exec_writes_flag_then_result (i := .subReg x y) (s := s) rfl
    exact ⟨t, ht, hres ▸ byte_sub_toNat _ _, fun hx => (hflag hx).trans (flagByte_greaterFlag _ _), hrest⟩
  · obtain ⟨t, ht, hres, hflag, hrest⟩ := exec_writes_flag_then_result (i := .subnReg x y) (s := s) rfl
    exact ⟨t, ht, hres ▸ byte_sub_toNat _ _, fun hx => (hflag hx).trans (flagByte_greaterFlag _ _), hrest⟩

/-- Settles O27: the shifted value is written last, and the flag is the bit of the old `V[x]` that the shift drops. -/
theorem shiftsWriteBitThenResult : Obligations.ShiftsWriteBitThenResult := by
  unfold Obligations.ShiftsWriteBitThenResult
  refine ⟨encodes_shr, encodes_shl, fun x y s => ⟨?_, ?_⟩⟩
  · obtain ⟨t, ht, hres, hflag, hrest⟩ := exec_writes_flag_then_result (i := .shr x y) (s := s) rfl
    refine ⟨t, ht, hres ▸ byte_shiftRight_one_toNat _, fun hx => ?_, hrest⟩
    exact hflag hx ▸ flagByte_shiftedOutRight_toNat _
  · obtain ⟨t, ht, hres, hflag, hrest⟩ := exec_writes_flag_then_result (i := .shl x y) (s := s) rfl
    refine ⟨t, ht, hres ▸ byte_shiftLeft_one_toNat _, fun hx => ?_, hrest⟩
    exact hflag hx ▸ flagByte_shiftedOutLeft_toNat _

end Sys2Proof.Machine
end

section
/-! The rows of the table for the address-register and memory instructions (spec/30_encoding.md R66, row 21 and
rows 31 to 35). -/

namespace Sys2Proof.Machine

open Sys2Proof.Laws.RowOfEncoding (row_mem)

theorem encodes_ldI : Encodes 0xA000 0xF000 (fun w => .ldI (fieldNNN w)) :=
  encodes_of_row (row_mem 20 (by decide)) (by decide)

theorem encodes_addIVx : Encodes 0xF01E 0xF0FF (fun w => .addIVx (fieldX w)) :=
  encodes_of_row (row_mem 30 (by decide)) (by decide)

theorem encodes_ldFVx : Encodes 0xF029 0xF0FF (fun w => .ldFVx (fieldX w)) :=
  encodes_of_row (row_mem 31 (by decide)) (by decide)

theorem encodes_ldBVx : Encodes 0xF033 0xF0FF (fun w => .ldBVx (fieldX w)) :=
  encodes_of_row (row_mem 32 (by decide)) (by decide)

theorem encodes_ldMemVx : Encodes 0xF055 0xF0FF (fun w => .ldMemVx (fieldX w)) :=
  encodes_of_row (row_mem 33 (by decide)) (by decide)

theorem encodes_ldVxMem : Encodes 0xF065 0xF0FF (fun w => .ldVxMem (fieldX w)) :=
  encodes_of_row (row_mem 34 (by decide)) (by decide)

end Sys2Proof.Machine
end

section
/-! Address-register and memory instructions (spec/42_index_memory.md R140 to R145). Three write `I` alone, LD B and
LD [I],Vx store a list of bytes at `I` and up, LD Vx,[I] loads registers from there. A rule for the first two shapes
says what the write leaves and what the effect keeps. -/

namespace Sys2Proof.Machine

variable {i : Instr} {s : State}

/-- An instruction that writes `a` to `I` alone. -/
theorem exec_writes_addressRegister {a : Word} (h : exec i s = .next (s.setI a).advance) :
    ∃ t, exec i s = .next t ∧ t.I = a ∧ t.pc = s.pc + 2 ∧ KeepsAllBut (fun p => p = .addressRegister) s t :=
  ⟨_, h, rfl, rfl, (keeps_setI (changed := fun p => p = .addressRegister) s a rfl).trans (keeps_setPc _ _ _)⟩

/-- An instruction that stores `vs` at `base` and up. -/
theorem exec_stores_bytes {base : Nat} {vs : List Byte}
    (h : exec i s = .next (s.setMem (storeBytes s.mem base vs)).advance) :
    ∃ t, exec i s = .next t ∧ (∀ (k : Nat) (hk : k < vs.length), t.byteAt (base + k) = vs[k]) ∧
      t.pc = s.pc + 2 ∧ KeepsAllBut (bytesFrom base vs.length) s t := by
  refine ⟨_, h, fun k hk => memRead_storeBytes_at s.mem base k vs hk, rfl, ?_⟩
  exact (keeps_storeBytes s base vs fun k hk => ⟨k, hk, rfl⟩).trans (keeps_setPc _ _ _)

/-- R143: hundreds, tens and units are small enough for the byte that holds each. -/
theorem bcdDigits_toNat (a : Byte) : (bcdDigits a)[0].toNat = a.toNat / 100 ∧
    (bcdDigits a)[1].toNat = a.toNat / 10 % 10 ∧ (bcdDigits a)[2].toNat = a.toNat % 10 := by
  have ha := a.isLt
  refine ⟨Nat.mod_eq_of_lt ?_, Nat.mod_eq_of_lt ?_, Nat.mod_eq_of_lt ?_⟩ <;> omega

/-! ### Memory -/

/-- Settles O32: LD B stores the three digits as a list of bytes, checked as a whole before the first one. -/
theorem bcdStoresThreeDigits : Obligations.BcdStoresThreeDigits := by
  unfold Obligations.BcdStoresThreeDigits
  refine ⟨encodes_ldBVx, fun x s => ⟨fun hin => ?_, fun hout => exec_ldBVx_outside s x (by omega)⟩⟩
  obtain ⟨t, ht, hbyte, hrest⟩ := exec_stores_bytes (exec_ldBVx_inside s x (by omega))
  obtain ⟨hundreds, tens, units⟩ := bcdDigits_toNat (s.getV x)
  refine ⟨t, ht, ?_, ?_, ?_, hrest⟩
  · exact hbyte 0 (by simp) ▸ hundreds
  · exact hbyte 1 (by simp) ▸ tens
  · exact hbyte 2 (by simp) ▸ units

/-- Settles O33: LD [I],Vx stores `V[0..x]` as a list of `x + 1` bytes, checked as a whole before the first one. -/
theorem storeRegistersWritesFromI : Obligations.StoreRegistersWritesFromI := by
  unfold Obligations.StoreRegistersWritesFromI
  refine ⟨encodes_ldMemVx, fun x s => ⟨fun hin => ?_, fun hout => exec_ldMemVx_outside s x (by omega)⟩⟩
  obtain ⟨t, ht, hbyte, hrest⟩ := exec_stores_bytes (exec_ldMemVx_inside s x (by omega))
  have hlen := regsUpTo_length s x
  refine ⟨t, ht, fun k hk => ?_, hlen ▸ hrest⟩
  exact (hbyte k.val (by omega)).trans (regsUpTo_getElem s x k _)

/-- Settles O34: LD Vx,[I] replaces the registers up to `x` and only reads memory. -/
theorem loadRegistersReadsFromI : Obligations.LoadRegistersReadsFromI := by
  unfold Obligations.LoadRegistersReadsFromI
  refine ⟨encodes_ldVxMem, fun x s => ⟨fun hin => ?_, fun hout => exec_ldVxMem_outside s x (by omega)⟩⟩
  refine ⟨_, exec_ldVxMem_inside s x (by omega), fun k hk => ?_, rfl, ?_⟩
  · exact (s.loadRegs_getV x s.I.toNat k).trans (if_pos hk)
  · exact (keeps_loadRegs s x _ fun k hk => ⟨k, hk, rfl⟩).trans (keeps_setPc _ _ _)

/-! ### The address register -/

/-- Settles O30: it writes `I` alone, with the operand zero-extended. -/
theorem loadAddressRegister : Obligations.LoadAddressRegister := by
  unfold Obligations.LoadAddressRegister
  refine ⟨encodes_ldI, fun nnn s => ?_⟩
  obtain ⟨t, ht, hI, hrest⟩ := exec_writes_addressRegister (i := .ldI nnn) (s := s) rfl
  exact ⟨t, ht, hI ▸ addrOperand_toNat nnn, hrest⟩

/-- R141: the sum of `I` and a byte, modulo 65536 (D14). -/
theorem add_byteOperand_toNat (a : Word) (v : Byte) :
    (a + byteOperand v).toNat = (a.toNat + v.toNat) % 65536 := by
  rw [BitVec.toNat_add, byteOperand_toNat]

/-- Settles O31: both write `I` alone, ADD I in every state and LD F for a digit. -/
theorem addressRegisterSumAndGlyph : Obligations.AddressRegisterSumAndGlyph := by
  unfold Obligations.AddressRegisterSumAndGlyph
  refine ⟨encodes_addIVx, encodes_ldFVx, fun x s => ⟨?_, fun hdigit => ?_, exec_ldFVx_above s x⟩⟩
  · obtain ⟨t, ht, hI, hrest⟩ := exec_writes_addressRegister (i := .addIVx x) (s := s) rfl
    exact ⟨t, ht, hI ▸ add_byteOperand_toNat _ _, hrest⟩
  · obtain ⟨t, ht, hI, hrest⟩ := exec_writes_addressRegister (exec_ldFVx_digit s x (by omega))
    exact ⟨t, ht, hI ▸ glyphAddr_toNat _, hrest⟩

end Sys2Proof.Machine
end

section
/-! The rows of the table for the display instructions (spec/30_encoding.md R66, rows 2 and 24). -/

namespace Sys2Proof.Machine

open Sys2Proof.Laws.RowOfEncoding (row_mem)

/-- CLS's row has no variable bits, so it matches its own word alone. -/
theorem encodes_cls : Encodes 0x00E0 0xFFFF (fun _ => .cls) := by
  intro w hw
  rw [and_FFFF] at hw
  rw [hw, decodeWord_cls]

theorem encodes_drw : Encodes 0xD000 0xF000 (fun w => .drw (fieldX w) (fieldY w) (fieldN w)) :=
  encodes_of_row (row_mem 23 (by decide)) (by decide)

end Sys2Proof.Machine
end

section
/-! One pixel drawn (spec/43_display.md R151), and a sprite in the terms of `Covers` (R152, R153): which pixels it
inverts, and that its report is of the pixels that went from 1 to 0. -/

namespace Sys2Proof.Machine

variable {d : Display} {bytes : List Byte} {x y : Nat} {r : Fin 32} {c : Fin 64}

/-! ### One pixel -/

theorem pixel_drawPixel_target (d : Display) (value : Bool) (x y : Nat) :
    pixel (drawPixel d value x y).1 (wrapRow y) (wrapCol x) = (pixel d (wrapRow y) (wrapCol x) ^^ value) :=
  (pixel_setPixel d _ _ _ _ _).trans (if_pos ⟨rfl, rfl⟩)

theorem pixel_drawPixel_eq_ite (d : Display) (value : Bool) (x y : Nat) (r : Fin 32) (c : Fin 64) :
    pixel (drawPixel d value x y).1 r c =
      if r.val = y % 32 ∧ c.val = x % 64 then (pixel d r c ^^ value) else pixel d r c := by
  split
  · next h =>
    obtain ⟨hr, hc⟩ := h
    obtain rfl : r = wrapRow y := Fin.ext hr
    obtain rfl : c = wrapCol x := Fin.ext hc
    exact pixel_drawPixel_target d value x y
  · next h =>
    refine (pixel_setPixel d _ _ _ _ _).trans (if_neg ?_)
    rintro ⟨rfl, rfl⟩
    exact h ⟨rfl, rfl⟩

theorem drawPixel_hit_iff_target_cleared (d : Display) (value : Bool) (x y : Nat) :
    (drawPixel d value x y).2 = true ↔ pixel d (wrapRow y) (wrapCol x) = true ∧
      pixel (drawPixel d value x y).1 (wrapRow y) (wrapCol x) = false := by
  rw [drawPixel_hit, Bool.and_eq_true, pixel_drawPixel_target]
  refine and_congr_right fun hlit => ?_
  rw [hlit, Bool.true_xor, Bool.not_eq_false']

/-- Settles O38: the wrapped coordinates name the one pixel that is set to its XOR with the bit. -/
theorem drawPixelXorsOnePixel : Obligations.DrawPixelXorsOnePixel := by
  unfold Obligations.DrawPixelXorsOnePixel
  refine fun d value x y => ⟨pixel_drawPixel_eq_ite d value x y, ?_⟩
  rw [drawPixel_hit_iff_target_cleared]
  constructor
  · exact fun hcleared => ⟨wrapRow y, wrapCol x, rfl, rfl, hcleared⟩
  · rintro ⟨r, c, hr, hc, hcleared⟩
    obtain rfl : r = wrapRow y := Fin.ext hr
    obtain rfl : c = wrapCol x := Fin.ext hc
    exact hcleared

/-! ### A sprite -/

theorem pixel_drawSprite_of_covers (hlen : bytes.length ≤ 32) (hcov : Covers bytes x y r c) :
    pixel (drawSprite d bytes x y).1 r c = !pixel d r c := by
  rw [pixel_drawSprite d bytes x y hlen, (spriteBit_iff_covers bytes x y r c hlen).mpr hcov, Bool.xor_true]

theorem pixel_drawSprite_of_not_covers (hlen : bytes.length ≤ 32) (hcov : ¬ Covers bytes x y r c) :
    pixel (drawSprite d bytes x y).1 r c = pixel d r c := by
  rw [← spriteBit_iff_covers bytes x y r c hlen, Bool.not_eq_true] at hcov
  rw [pixel_drawSprite d bytes x y hlen, hcov, Bool.xor_false]

theorem drawSprite_hit_iff_pixel_cleared (hlen : bytes.length ≤ 32) : (drawSprite d bytes x y).2 = true ↔
    ∃ r c, pixel d r c = true ∧ pixel (drawSprite d bytes x y).1 r c = false := by
  rw [drawSprite_hit d bytes x y hlen]
  refine exists₂_congr fun r c => and_congr_right fun hlit => ?_
  rw [pixel_drawSprite d bytes x y hlen, hlit, Bool.true_xor, Bool.not_eq_false']

end Sys2Proof.Machine
end

section
/-! Display instructions and the host's read of the display (spec/43_display.md R150, R153, R154). -/

namespace Sys2Proof.Machine

variable {s t : State}

/-- Settles O37: it replaces the display by the blank one. -/
theorem clearDisplayBlanksEveryPixel : Obligations.ClearDisplayBlanksEveryPixel := by
  unfold Obligations.ClearDisplayBlanksEveryPixel
  refine ⟨encodes_cls, fun s => ⟨_, rfl, pixel_blank, rfl, ?_⟩⟩
  exact (keeps_setDisp s blankDisplay fun r c => ⟨r, c, rfl⟩).trans (keeps_setPc _ _ _)

/-- Settles O40: DRW's sprite has at most 15 rows, so it inverts what it covers, and VF is its report, written
last. -/
theorem drawInstruction : Obligations.DrawInstruction := by
  unfold Obligations.DrawInstruction
  refine ⟨encodes_drw, fun x y n s => ⟨fun hin => ?_, fun hpos hout => exec_drw_outside s x y n hpos (by omega)⟩⟩
  have hlen : (loadBytes s.mem s.I.toNat n.val).length ≤ 32 := by
    rw [loadBytes_length]
    exact (n.isLt.trans (by decide)).le
  refine ⟨_, exec_drw_inside s x y n (by omega), fun r c => pixel_drawSprite_of_covers hlen,
    fun r c => pixel_drawSprite_of_not_covers hlen, fun hcleared => ?_, fun hkept => ?_, rfl, ?_⟩
  · have hhit := (drawSprite_hit_iff_pixel_cleared hlen).mpr hcleared
    exact ((s.setDisp _).setV_getV_self vf _).trans (congrArg flagByte hhit)
  · have hmiss := (drawSprite_hit_iff_pixel_cleared hlen).not.mpr fun ⟨r, c, hlit, hdark⟩ =>
      absurd (hkept r c hlit) (Bool.eq_false_iff.mp hdark)
    exact ((s.setDisp _).setV_getV_self vf _).trans (congrArg flagByte (Bool.eq_false_iff.mpr hmiss))
  · exact ((keeps_setDisp s _ fun r c => .inr ⟨r, c, rfl⟩).trans (keeps_setV _ vf _ (.inl rfl))).trans
      (keeps_setPc _ _ _)

/-- R216: all a load can do. -/
theorem load_eq_some {bytes : List Byte} :
    load bytes s = some t ↔ bytes.length ≤ 3584 ∧ s.setMem (storeBytes s.mem 0x200 bytes) = t := by
  rw [load, Option.ite_none_right_eq_some, Option.some.injEq]

/-- R154: of the host's operations only a step and a reset write the display. -/
theorem perform_disp {op : Operation} {a : Response} (h : perform op s = some (t, a)) (hstep : op ≠ .step)
    (hreset : op ≠ .reset) : t.disp = s.disp := by
  cases op with
  | reset => exact absurd rfl hreset
  | step => exact absurd rfl hstep
  | load bytes =>
    obtain ⟨u, hload, hpair⟩ := Option.map_eq_some_iff.mp h
    cases hpair
    obtain ⟨-, rfl⟩ := load_eq_some.mp hload
    rfl
  | tick | keyDown k | keyUp k | isKeyDown k | readDisplay =>
    cases h
    rfl

/-- Settles O59: the read answers the display itself, and the other operations leave the display as it was. -/
theorem displayIsReadAndNotWrittenByTheHost : Obligations.DisplayIsReadAndNotWrittenByTheHost := by
  unfold Obligations.DisplayIsReadAndNotWrittenByTheHost
  refine ⟨fun s => ⟨s.disp, rfl, fun _ _ => rfl⟩, fun op s t a h hstep hreset r c => ?_⟩
  rw [perform_disp h hstep hreset]

end Sys2Proof.Machine
end

section
/-! The rows of the table for the key and timer instructions (spec/30_encoding.md R66, rows 25 to 30). -/

namespace Sys2Proof.Machine

open Sys2Proof.Laws.RowOfEncoding (row_mem)

theorem encodes_skp : Encodes 0xE09E 0xF0FF (fun w => .skp (fieldX w)) :=
  encodes_of_row (row_mem 24 (by decide)) (by decide)

theorem encodes_sknp : Encodes 0xE0A1 0xF0FF (fun w => .sknp (fieldX w)) :=
  encodes_of_row (row_mem 25 (by decide)) (by decide)

theorem encodes_ldVxDT : Encodes 0xF007 0xF0FF (fun w => .ldVxDT (fieldX w)) :=
  encodes_of_row (row_mem 26 (by decide)) (by decide)

theorem encodes_ldVxK : Encodes 0xF00A 0xF0FF (fun w => .ldVxK (fieldX w)) :=
  encodes_of_row (row_mem 27 (by decide)) (by decide)

theorem encodes_ldDTVx : Encodes 0xF015 0xF0FF (fun w => .ldDTVx (fieldX w)) :=
  encodes_of_row (row_mem 28 (by decide)) (by decide)

theorem encodes_ldSTVx : Encodes 0xF018 0xF0FF (fun w => .ldSTVx (fieldX w)) :=
  encodes_of_row (row_mem 29 (by decide)) (by decide)

end Sys2Proof.Machine
end

section
/-! Key and timer instructions (spec/44_keys_timers.md R165 to R170). SKP and SKNP are the skips of R104 and R105
with a key as their condition, and LD Vx,DT and LD Vx,K write one register as the loads of R120 to R122 do; a rule for
each timer says what its load leaves. -/

namespace Sys2Proof.Machine

variable {i : Instr} {s : State} {x : RegIdx} {v : Byte}

/-! ### Keys -/

/-- R165 with `V[x]` the number of key `k`. -/
theorem exec_skp_key (k : KeyIdx) (hk : (s.getV x).toNat = k.val) :
    exec (.skp x) s = .next (s.skipIf (decide (s.keys.getLsbD k.val = true))) := by
  rw [Bool.decide_eq_true, ← hk]
  exact exec_skp_digit s x (hk.trans_lt k.isLt)

/-- R166 with `V[x]` the number of key `k`. -/
theorem exec_sknp_key (k : KeyIdx) (hk : (s.getV x).toNat = k.val) :
    exec (.sknp x) s = .next (s.skipIf (!decide (s.keys.getLsbD k.val = true))) := by
  rw [Bool.decide_eq_true, ← hk]
  exact exec_sknp_digit s x (hk.trans_lt k.isLt)

/-- Settles O42: on a key's number they are skips whose condition is that key's bit, and above 15 the operand check
(D9) comes first. -/
theorem skipsOnAKey : Obligations.SkipsOnAKey := by
  unfold Obligations.SkipsOnAKey
  refine ⟨encodes_skp, encodes_sknp, fun x s => ⟨fun k hk => ⟨?_, ?_⟩, fun habove => ⟨?_, ?_⟩⟩⟩
  · exact exec_skips_when _ (exec_skp_key k hk)
  · exact exec_skips_unless _ (exec_sknp_key k hk)
  · exact exec_skp_above s x habove
  · exact exec_sknp_above s x habove

/-- Settles O43: by LD Vx,K's two cases, no key down and some key down. -/
theorem waitForKey : Obligations.WaitForKey := by
  unfold Obligations.WaitForKey
  refine ⟨encodes_ldVxK, fun x s => ⟨exec_ldVxK_none s x, fun hdown => ?_⟩⟩
  obtain ⟨t, ht, hres, hrest⟩ := exec_writes_register (exec_ldVxK_some s x hdown)
  exact ⟨t, ht, hres ▸ keyByte_toNat s.lastKey, hrest⟩

/-! ### Timers -/

/-- An instruction that writes `v` to DT alone. -/
theorem exec_writes_delayTimer (h : exec i s = .next (s.setDT v).advance) :
    ∃ t, exec i s = .next t ∧ t.DT = v ∧ t.pc = s.pc + 2 ∧ KeepsAllBut (fun p => p = .delayTimer) s t :=
  ⟨_, h, rfl, rfl, (keeps_setDT (changed := fun p => p = .delayTimer) s v rfl).trans (keeps_setPc _ _ _)⟩

/-- An instruction that writes `v` to ST alone. -/
theorem exec_writes_soundTimer (h : exec i s = .next (s.setST v).advance) :
    ∃ t, exec i s = .next t ∧ t.ST = v ∧ t.pc = s.pc + 2 ∧ KeepsAllBut (fun p => p = .soundTimer) s t :=
  ⟨_, h, rfl, rfl, (keeps_setST (changed := fun p => p = .soundTimer) s v rfl).trans (keeps_setPc _ _ _)⟩

/-- Settles O45: LD Vx,DT writes `V[x]` alone, and the other two write their timer alone. -/
theorem timerInstructions : Obligations.TimerInstructions := by
  unfold Obligations.TimerInstructions
  refine ⟨encodes_ldVxDT, encodes_ldDTVx, encodes_ldSTVx, fun x s => ⟨?_, ?_, ?_⟩⟩
  · exact exec_writes_register rfl
  · exact exec_writes_delayTimer rfl
  · exact exec_writes_soundTimer rfl

end Sys2Proof.Machine
end

section
/-! The host's key operations (spec/60_exceptions.md R198 to R200): a rule for each on the mask and one on its frame. -/

namespace Sys2Proof.Machine

/-- The mask of `k` has the bit of `k` alone among the sixteen keys. -/
theorem keyBit_getLsbD (k j : KeyIdx) : (keyBit k).getLsbD j.val = decide (j = k) := by
  rw [keyBit, BitVec.getLsbD_twoPow, decide_eq_true k.isLt, Bool.true_and]
  exact decide_eq_decide.mpr (Fin.val_inj.trans eq_comm)

/-- R198 on the mask: the key's own bit is set. -/
theorem isKeyDown_keyDown (s : State) (k j : KeyIdx) :
    isKeyDown (keyDown k s) j = (decide (j = k) || isKeyDown s j) := by
  calc isKeyDown (keyDown k s) j
      = (s.keys ||| keyBit k).getLsbD j.val := rfl
    _ = (isKeyDown s j || decide (j = k)) := by rw [BitVec.getLsbD_or, keyBit_getLsbD, isKeyDown]
    _ = (decide (j = k) || isKeyDown s j) := Bool.or_comm _ _

/-- R199 on the mask: the key's own bit is cleared. -/
theorem isKeyDown_keyUp (s : State) (k j : KeyIdx) :
    isKeyDown (keyUp k s) j = (!decide (j = k) && isKeyDown s j) := by
  have hmask : (~~~(keyBit k)).getLsbD j.val = !decide (j = k) := by
    rw [BitVec.getLsbD_not, keyBit_getLsbD, decide_eq_true j.isLt, Bool.true_and]
  calc isKeyDown (keyUp k s) j
      = (s.keys &&& ~~~(keyBit k)).getLsbD j.val := rfl
    _ = (isKeyDown s j && !decide (j = k)) := by rw [BitVec.getLsbD_and, hmask, isKeyDown]
    _ = (!decide (j = k) && isKeyDown s j) := Bool.and_comm _ _

/-- R198's frame. -/
theorem keeps_keyDown (s : State) (k : KeyIdx) :
    KeepsAllBut (fun p => p = .keyMask ∨ p = .lastKey) s (keyDown k s) :=
  (keeps_setKeys s _ (.inl rfl)).trans (keeps_setLastKey _ k (.inr rfl))

/-- R199's frame, `lastKey` included. -/
theorem keeps_keyUp (s : State) (k : KeyIdx) : KeepsAllBut (fun p => p = .keyMask) s (keyUp k s) :=
  keeps_setKeys s _ rfl

/-- Settles O48: by the rules of the two writes on the mask and their frames; the read answers the bit itself. -/
theorem keyOperations : Obligations.KeyOperations := by
  unfold Obligations.KeyOperations
  refine fun k s => ⟨?_, ?_, rfl⟩
  · exact ⟨keyDown k s, rfl, rfl, rfl, isKeyDown_keyDown s k, keeps_keyDown s k⟩
  · exact ⟨keyUp k s, rfl, rfl, isKeyDown_keyUp s k, keeps_keyUp s k⟩

end Sys2Proof.Machine
end

section
/-! Load and reset as operations of the host (spec/70_reset_and_hazards.md R210, R216, R218): what a loaded byte
reads as, the fetch at the entry point, and the reset values the source states. -/

namespace Sys2Proof.Machine

variable {s t : State}

/-- R40 at the entry point, where no address is out of range. -/
theorem fetch_at_entry (hpc : s.pc = 0x200) :
    fetch s = .ok (wordOfBytes (s.byteAt 0x200) (s.byteAt 0x201)) := by
  have hentry : s.pc.toNat = 0x200 := congrArg BitVec.toNat hpc
  rw [fetch_eq, wordAtPc_eq, hentry]
  exact if_pos (by decide)

/-! ### Load -/

/-- R216: byte `k` of the image stands at address 0x200 + `k`. -/
theorem load_byteAt {bytes : List Byte} (h : load bytes s = some t) (k : Nat) (hk : k < bytes.length) :
    t.byteAt (0x200 + k) = bytes[k] := by
  obtain ⟨-, rfl⟩ := load_eq_some.mp h
  exact memRead_storeBytes_at s.mem 0x200 k bytes hk

theorem load_pc {bytes : List Byte} (h : load bytes s = some t) : t.pc = s.pc := by
  obtain ⟨-, rfl⟩ := load_eq_some.mp h
  rfl

/-- Settles O50: the load leaves `pc`, so the fetch joins the two bytes the image put at 0x200 and 0x201. -/
theorem loadThenFetchGivesTheFirstWord : Obligations.LoadThenFetchGivesTheFirstWord := by
  unfold Obligations.LoadThenFetchGivesTheFirstWord
  intro b0 b1 rest s hlen hpc
  obtain ⟨t, hload⟩ : ∃ t, load (b0 :: b1 :: rest) s = some t := ⟨_, load_eq_some.mpr ⟨hlen, rfl⟩⟩
  have hb0 : t.byteAt 0x200 = b0 := load_byteAt hload 0 (by simp)
  have hb1 : t.byteAt 0x201 = b1 := load_byteAt hload 1 (by simp)
  have hfetch := fetch_at_entry ((load_pc hload).trans hpc)
  rw [hb0, hb1] at hfetch
  exact ⟨t, hload, hb0, hb1, _, hfetch, wordOfBytes_toNat b0 b1⟩

/-! ### Reset -/

/-- R210, from any state before. -/
theorem hostReset_source_values (s : State) : (hostReset s).pc = 0x200 ∧ (hostReset s).sp.toInt = -1 ∧
    (hostReset s).DT = 0 ∧ (hostReset s).ST = 0 ∧ ∀ r c, pixel (hostReset s).disp r c = false :=
  ⟨rfl, rfl, rfl, rfl, pixel_blank⟩

/-- A reset right after a reset changes nothing: also the draw counter, which it keeps, is still 0. -/
theorem hostReset_reset : hostReset State.reset = State.reset := rfl

/-- Settles O51: the operation sets the source's values whatever the state before, and the state after reset is its
own reset. -/
theorem resetValuesOfTheSource : Obligations.ResetValuesOfTheSource := by
  unfold Obligations.ResetValuesOfTheSource
  refine ⟨?_, fun s => ⟨hostReset s, rfl, hostReset_source_values s⟩⟩
  obtain ⟨hpc, hsp, hDT, hST, hdark⟩ := hostReset_reset ▸ hostReset_source_values State.reset
  exact ⟨hpc, hsp, hDT, hST, hdark, fetch_at_entry hpc⟩

end Sys2Proof.Machine
end

section
/-! Decoding against encoding (spec/30_encoding.md R60 to R66), in both directions, row by row: a row that matches an
instruction's word builds the instruction, and what a matching row builds from a word has that word. -/

namespace Sys2Proof.Machine

open Sys2Proof.Laws

variable {w : Word} {i : Instr}

/-! ### From the instruction to its word and back -/

theorem exists_row_of_encode (i : Instr) : RowOfEncoding.Statement i := by
  cases i with
  | sys nnn => exact RowOfEncoding.sys nnn
  | cls => exact RowOfEncoding.cls
  | ret => exact RowOfEncoding.ret
  | jp nnn => exact RowOfEncoding.jp nnn
  | call nnn => exact RowOfEncoding.call nnn
  | seImm x kk => exact RowOfEncoding.seImm x kk
  | sneImm x kk => exact RowOfEncoding.sneImm x kk
  | seReg x y => exact RowOfEncoding.seReg x y
  | sneReg x y => exact RowOfEncoding.sneReg x y
  | ldImm x kk => exact RowOfEncoding.ldImm x kk
  | addImm x kk => exact RowOfEncoding.addImm x kk
  | ldReg x y => exact RowOfEncoding.ldReg x y
  | orReg x y => exact RowOfEncoding.orReg x y
  | andReg x y => exact RowOfEncoding.andReg x y
  | xorReg x y => exact RowOfEncoding.xorReg x y
  | addReg x y => exact RowOfEncoding.addReg x y
  | subReg x y => exact RowOfEncoding.subReg x y
  | subnReg x y => exact RowOfEncoding.subnReg x y
  | shr x y => exact RowOfEncoding.shr x y
  | shl x y => exact RowOfEncoding.shl x y
  | ldI nnn => exact RowOfEncoding.ldI nnn
  | jpV0 nnn => exact RowOfEncoding.jpV0 nnn
  | rnd x kk => exact RowOfEncoding.rnd x kk
  | drw x y n => exact RowOfEncoding.drw x y n
  | skp x => exact RowOfEncoding.skp x
  | sknp x => exact RowOfEncoding.sknp x
  | ldVxDT x => exact RowOfEncoding.ldVxDT x
  | ldVxK x => exact RowOfEncoding.ldVxK x
  | ldDTVx x => exact RowOfEncoding.ldDTVx x
  | ldSTVx x => exact RowOfEncoding.ldSTVx x
  | addIVx x => exact RowOfEncoding.addIVx x
  | ldFVx x => exact RowOfEncoding.ldFVx x
  | ldBVx x => exact RowOfEncoding.ldBVx x
  | ldMemVx x => exact RowOfEncoding.ldMemVx x
  | ldVxMem x => exact RowOfEncoding.ldVxMem x

/-- R65: SYS's row matches the word of CLS too, but what it builds from it is not well formed (R100). -/
theorem rows_of_cls_word : ∀ d ∈ opcodeTable, 0x00E0 &&& d.mask = d.pattern →
    (d.build 0x00E0).wellFormed = true → d.build 0x00E0 = .cls := by
  decide

/-- R65, R100 for the word of RET. -/
theorem rows_of_ret_word : ∀ d ∈ opcodeTable, 0x00EE &&& d.mask = d.pattern →
    (d.build 0x00EE).wellFormed = true → d.build 0x00EE = .ret := by
  decide

theorem decodeWord_encode (hwf : i.wellFormed = true) : decodeWord (encode i) = some i := by
  obtain ⟨d, hd, hmatch, hbuild⟩ := exists_row_of_encode i
  by_cases hcls : encode i = 0x00E0
  · rw [hcls] at hmatch hbuild ⊢
    subst hbuild
    rw [rows_of_cls_word d hd hmatch hwf, decodeWord_cls]
  by_cases hret : encode i = 0x00EE
  · rw [hret] at hmatch hbuild ⊢
    subst hbuild
    rw [rows_of_ret_word d hd hmatch hwf, decodeWord_ret]
  rw [decodeWord_of_row d (encode i) hd hmatch hcls hret, hbuild]

/-- Settles O1: the two bytes join to the instruction's word, which decodes to it. -/
theorem decodeOfEncodeIsTheInstruction : Obligations.DecodeOfEncodeIsTheInstruction := by
  unfold Obligations.DecodeOfEncodeIsTheInstruction
  intro i rest hwf
  simp only [encodeBytes, bytesOfWord, List.cons_append, List.nil_append, decode, bytesOfWord_wordOfBytes,
    decodeWord_encode hwf]

/-! ### From the word to the instruction and back -/

/-- What the row builds from any word it matches has exactly that word. -/
def RowRebuilds (d : Descriptor) : Prop := ∀ w : Word, w &&& d.mask = d.pattern → encode (d.build w) = w

theorem topNibble_of_match {t : BitVec 4} (h : w &&& 0xF000 = encNNN t 0) : w.extractLsb' 12 4 = t := by
  have hnum := congrArg BitVec.toNat h
  have hzero : (0 : Addr12).toNat = 0 := rfl
  rw [and_F000_toNat, encNNN_toNat, hzero] at hnum
  apply BitVec.eq_of_toNat_eq
  rw [topNibble_toNat]
  omega

theorem encNNN_of_match {t : BitVec 4} (h : w &&& 0xF000 = encNNN t 0) : encNNN t (fieldNNN w) = w := by
  rw [← topNibble_of_match h, ← word_eq_encNNN]

theorem encXKK_of_match {t : BitVec 4} (h : w &&& 0xF000 = encNNN t 0) :
    encXKK t (fieldX w) (fieldKK w) = w := by
  rw [← topNibble_of_match h, ← word_eq_encXKK]

theorem encXYN_of_match {t : BitVec 4} (h : w &&& 0xF000 = encNNN t 0) :
    encXYN t (fieldX w) (fieldY w) (nib (fieldN w)) = w := by
  rw [← topNibble_of_match h, ← word_eq_encXYN]

/-- A row that also fixes the low nibble. -/
theorem encXYN_of_match_low {t n : BitVec 4} (h : w &&& 0xF00F = encXYN t 0 0 n) :
    encXYN t (fieldX w) (fieldY w) n = w := by
  have hnum := congrArg BitVec.toNat h
  rw [and_F00F_toNat, encXYN_toNat, Fin.val_zero] at hnum
  have htop : w.extractLsb' 12 4 = t := by
    apply BitVec.eq_of_toNat_eq
    rw [topNibble_toNat]
    omega
  have hlow : nib (fieldN w) = n := by
    apply BitVec.eq_of_toNat_eq
    rw [nib_toNat, fieldN_val]
    omega
  rw [← htop, ← hlow, ← word_eq_encXYN]

/-- A row that also fixes the low byte. -/
theorem encXKK_of_match_low {t : BitVec 4} {kk : Byte} (h : w &&& 0xF0FF = encXKK t 0 kk) :
    encXKK t (fieldX w) kk = w := by
  have hnum := congrArg BitVec.toNat h
  rw [and_F0FF_toNat, encXKK_toNat, Fin.val_zero] at hnum
  have htop : w.extractLsb' 12 4 = t := by
    apply BitVec.eq_of_toNat_eq
    rw [topNibble_toNat]
    omega
  have hlow : fieldKK w = kk := by
    apply BitVec.eq_of_toNat_eq
    rw [fieldKK_toNat]
    omega
  rw [← htop, ← hlow, ← word_eq_encXKK]

/-- A row without variable bits. -/
theorem eq_pattern_of_match {p : Word} (h : w &&& 0xFFFF = p) : p = w :=
  h.symm.trans (and_FFFF w)

theorem tableControl_rebuilds : ∀ d ∈ tableControl, RowRebuilds d := by
  simp only [tableControl, List.forall_mem_cons]
  exact ⟨fun w h => encNNN_of_match h, fun w h => eq_pattern_of_match h, fun w h => eq_pattern_of_match h,
    fun w h => encNNN_of_match h, fun w h => encNNN_of_match h, fun w h => encXKK_of_match h,
    fun w h => encXKK_of_match h, fun w h => encXYN_of_match_low h, fun w h => encXYN_of_match_low h,
    List.forall_mem_nil _⟩

theorem tableAlu_rebuilds : ∀ d ∈ tableAlu, RowRebuilds d := by
  simp only [tableAlu, List.forall_mem_cons]
  exact ⟨fun w h => encXKK_of_match h, fun w h => encXKK_of_match h, fun w h => encXYN_of_match_low h,
    fun w h => encXYN_of_match_low h, fun w h => encXYN_of_match_low h, fun w h => encXYN_of_match_low h,
    fun w h => encXYN_of_match_low h, fun w h => encXYN_of_match_low h, fun w h => encXYN_of_match_low h,
    fun w h => encXYN_of_match_low h, fun w h => encXYN_of_match_low h, List.forall_mem_nil _⟩

theorem tableMiddle_rebuilds : ∀ d ∈ tableMiddle, RowRebuilds d := by
  simp only [tableMiddle, List.forall_mem_cons]
  exact ⟨fun w h => encNNN_of_match h, fun w h => encNNN_of_match h, fun w h => encXKK_of_match h,
    fun w h => encXYN_of_match h, fun w h => encXKK_of_match_low h, fun w h => encXKK_of_match_low h,
    List.forall_mem_nil _⟩

theorem tableF_rebuilds : ∀ d ∈ tableF, RowRebuilds d := by
  simp only [tableF, List.forall_mem_cons]
  exact ⟨fun w h => encXKK_of_match_low h, fun w h => encXKK_of_match_low h, fun w h => encXKK_of_match_low h,
    fun w h => encXKK_of_match_low h, fun w h => encXKK_of_match_low h, fun w h => encXKK_of_match_low h,
    fun w h => encXKK_of_match_low h, fun w h => encXKK_of_match_low h, fun w h => encXKK_of_match_low h,
    List.forall_mem_nil _⟩

theorem opcodeTable_rebuilds : ∀ d ∈ opcodeTable, RowRebuilds d := by
  simp only [opcodeTable, List.forall_mem_append]
  exact ⟨⟨⟨tableControl_rebuilds, tableAlu_rebuilds⟩, tableMiddle_rebuilds⟩, tableF_rebuilds⟩

theorem encode_of_decodeWord (h : decodeWord w = some i) : encode i = w := by
  obtain ⟨d, hd, hmatch, rfl⟩ := decodeWord_eq_some w i h
  exact opcodeTable_rebuilds d hd w hmatch

/-- R100: the terms that are no instruction are SYS with an operand that makes its word that of CLS or RET. -/
theorem encode_of_not_wellFormed (h : i.wellFormed = false) : encode i = 0x00E0 ∨ encode i = 0x00EE := by
  cases i with
  | sys nnn =>
    have hnnn : nnn = 0x0E0 ∨ nnn = 0x0EE := by
      simpa [Instr.wellFormed, bne_eq_false_iff_eq, Decidable.or_iff_not_imp_left] using h
    rcases hnnn with rfl | rfl
    · exact .inl rfl
    · exact .inr rfl
  | _ => simp [Instr.wellFormed] at h

/-- The exact scan takes the words of CLS and RET before SYS's row can. -/
theorem wellFormed_of_decodeWord (h : decodeWord w = some i) : i.wellFormed = true := by
  by_contra hill
  rw [Bool.not_eq_true] at hill
  have hw := encode_of_decodeWord h
  rcases encode_of_not_wellFormed hill with he | he
  · rw [← hw, he, decodeWord_cls] at h
    cases h
    cases hill
  · rw [← hw, he, decodeWord_ret] at h
    cases h
    cases hill

theorem decode_cons_cons_eq_ok {b0 b1 : Byte} {rest left : List Byte}
    (h : decode (b0 :: b1 :: rest) = .ok (i, left)) : decodeWord (wordOfBytes b0 b1) = some i ∧ left = rest := by
  rw [decode] at h
  split at h
  · next j hj =>
    cases h
    exact ⟨hj, rfl⟩
  · cases h

/-- R40: a word's two bytes in memory order are the ones it was assembled from. -/
theorem bytesOfWord_of_wordOfBytes (b0 b1 : Byte) : bytesOfWord (wordOfBytes b0 b1) = [b0, b1] := by
  have h1 := b1.isLt
  have h0 := b0.isLt
  have hhi : (wordOfBytes b0 b1).extractLsb' 8 8 = b0 := by
    apply BitVec.eq_of_toNat_eq
    rw [BitVec.extractLsb'_toNat, wordOfBytes_toNat, Nat.shiftRight_eq_div_pow]
    omega
  have hlo : (wordOfBytes b0 b1).extractLsb' 0 8 = b1 := by
    apply BitVec.eq_of_toNat_eq
    rw [BitVec.extractLsb'_toNat, wordOfBytes_toNat, Nat.shiftRight_zero]
    omega
  rw [bytesOfWord, hhi, hlo]

/-- Settles O2: what a matching row builds has the word it was built from, and that word's bytes are the two read. -/
theorem encodeOfDecodeIsTheBytes : Obligations.EncodeOfDecodeIsTheBytes := by
  unfold Obligations.EncodeOfDecodeIsTheBytes
  intro b0 b1 rest left i h
  obtain ⟨hword, hleft⟩ := decode_cons_cons_eq_ok h
  refine ⟨wellFormed_of_decodeWord hword, ?_, hleft⟩
  rw [encodeBytes, encode_of_decodeWord hword, bytesOfWord_of_wordOfBytes]

end Sys2Proof.Machine
end

section
/-! The opcode map (spec/30_encoding.md R65, R68, R69): each of its arms is a row of the table or a selector that no row
has, so the table's lookup gives the same; and the words it gives nothing for. -/

namespace Sys2Proof.Machine

open Sys2Proof.Laws.RowOfEncoding (row_mem)

variable {w : Word}

/-! ### Rows by nibble and low byte -/

theorem encodes_rnd : Encodes 0xC000 0xF000 (fun w => .rnd (fieldX w) (fieldKK w)) :=
  encodes_of_row (row_mem 22 (by decide)) (by decide)

theorem lowNibble_toNat (w : Word) : (w.extractLsb' 0 4).toNat = w.toNat % 16 := by
  rw [BitVec.extractLsb'_toNat, Nat.shiftRight_zero]

theorem lowByte_toNat (w : Word) : (w.extractLsb' 0 8).toNat = w.toNat % 256 := by
  rw [BitVec.extractLsb'_toNat, Nat.shiftRight_zero]

theorem lowNibble_eq_zero (w : Word) : w.extractLsb' 0 4 = 0#4 ↔ w.toNat % 16 = 0 := by
  rw [← lowNibble_toNat]
  exact BitVec.toNat_eq

/-- A row that fixes the top nibble, by number. -/
theorem Encodes.of_top {p : Word} {build : Word → Instr} {t : Nat} (he : Encodes p 0xF000 build)
    (htop : w.toNat / 4096 = t) (hp : p.toNat = t * 4096) : decodeWord w = some (build w) := by
  refine he w (BitVec.eq_of_toNat_eq ?_)
  rw [and_F000_toNat, htop, hp]

/-- A row that fixes the top and the low nibble, by number. -/
theorem Encodes.of_top_and_low_nibble {p : Word} {build : Word → Instr} {t n : Nat}
    (he : Encodes p 0xF00F build) (htop : w.toNat / 4096 = t) (hlow : w.toNat % 16 = n)
    (hp : p.toNat = t * 4096 + n) : decodeWord w = some (build w) := by
  refine he w (BitVec.eq_of_toNat_eq ?_)
  rw [and_F00F_toNat, htop, hlow, hp]

/-- A row that fixes the top nibble and the low byte, by number. -/
theorem Encodes.of_top_and_low_byte {p : Word} {build : Word → Instr} {t n : Nat}
    (he : Encodes p 0xF0FF build) (htop : w.toNat / 4096 = t) (hlow : w.toNat % 256 = n)
    (hp : p.toNat = t * 4096 + n) : decodeWord w = some (build w) := by
  refine he w (BitVec.eq_of_toNat_eq ?_)
  rw [and_F0FF_toNat, htop, hlow, hp]

/-- A word and a row it matches agree on the top nibble, which every row fixes. -/
theorem top_of_match {d : Descriptor} (hd : d ∈ opcodeTable) (hw : w &&& d.mask = d.pattern) :
    d.pattern.toNat / 4096 = w.toNat / 4096 := by
  have hnum := congrArg BitVec.toNat (pattern_and_of_match hw (opcodeTable_fixes_topNibble d hd))
  rw [and_F000_toNat, and_F000_toNat] at hnum
  omega

/-- If the rows with top nibble `t` all fix the low nibble, a word with another low nibble matches none. -/
theorem decodeWord_eq_none_of_low_nibble {t : Nat} {sel : List Nat}
    (hrows : ∀ d ∈ opcodeTable, d.pattern.toNat / 4096 = t → d.mask = 0xF00F ∧ d.pattern.toNat % 16 ∈ sel)
    (htop : w.toNat / 4096 = t) (hlow : w.toNat % 16 ∉ sel) : decodeWord w = none := by
  refine (decodeWord_eq_none w).mpr fun d hd hw => hlow ?_
  obtain ⟨hmask, hmem⟩ := hrows d hd ((top_of_match hd hw).trans htop)
  rw [hmask] at hw
  have hnum := congrArg BitVec.toNat hw
  rw [and_F00F_toNat] at hnum
  have heq : d.pattern.toNat % 16 = w.toNat % 16 := by omega
  exact heq ▸ hmem

/-- If the rows with top nibble `t` all fix the low byte, a word with another low byte matches none. -/
theorem decodeWord_eq_none_of_low_byte {t : Nat} {sel : List Nat}
    (hrows : ∀ d ∈ opcodeTable, d.pattern.toNat / 4096 = t → d.mask = 0xF0FF ∧ d.pattern.toNat % 256 ∈ sel)
    (htop : w.toNat / 4096 = t) (hlow : w.toNat % 256 ∉ sel) : decodeWord w = none := by
  refine (decodeWord_eq_none w).mpr fun d hd hw => hlow ?_
  obtain ⟨hmask, hmem⟩ := hrows d hd ((top_of_match hd hw).trans htop)
  rw [hmask] at hw
  have hnum := congrArg BitVec.toNat hw
  rw [and_F0FF_toNat] at hnum
  have heq : d.pattern.toNat % 256 = w.toNat % 256 := by omega
  exact heq ▸ hmem

/-! ### The selectors of R68 -/

theorem decodeByLowNibble_eq_none (w : Word) : decodeByLowNibble w = none ↔
    w.toNat % 16 ∉ [0x0, 0x1, 0x2, 0x3, 0x4, 0x5, 0x6, 0x7, 0xE] := by
  rw [decodeByLowNibble, lowNibble_toNat]
  split <;> simp_all

theorem decodeByKeyByte_eq_none (w : Word) : decodeByKeyByte w = none ↔ w.toNat % 256 ∉ [0x9E, 0xA1] := by
  rw [decodeByKeyByte, lowByte_toNat]
  split <;> simp_all

theorem decodeByLowByte_eq_none (w : Word) : decodeByLowByte w = none ↔
    w.toNat % 256 ∉ [0x07, 0x0A, 0x15, 0x18, 0x1E, 0x29, 0x33, 0x55, 0x65] := by
  rw [decodeByLowByte, lowByte_toNat]
  split <;> simp_all

theorem decodeWord_of_top_8 (htop : w.toNat / 4096 = 0x8) : decodeWord w = decodeByLowNibble w := by
  have hnone := decodeByLowNibble_eq_none w
  rw [decodeByLowNibble, lowNibble_toNat] at hnone ⊢
  split at hnone
  · next h => exact encodes_ldReg.of_top_and_low_nibble htop h rfl
  · next h => exact encodes_orReg.of_top_and_low_nibble htop h rfl
  · next h => exact encodes_andReg.of_top_and_low_nibble htop h rfl
  · next h => exact encodes_xorReg.of_top_and_low_nibble htop h rfl
  · next h => exact encodes_addReg.of_top_and_low_nibble htop h rfl
  · next h => exact encodes_subReg.of_top_and_low_nibble htop h rfl
  · next h => exact encodes_shr.of_top_and_low_nibble htop h rfl
  · next h => exact encodes_subnReg.of_top_and_low_nibble htop h rfl
  · next h => exact encodes_shl.of_top_and_low_nibble htop h rfl
  · exact decodeWord_eq_none_of_low_nibble (by decide) htop (hnone.mp rfl)

theorem decodeWord_of_top_E (htop : w.toNat / 4096 = 0xE) : decodeWord w = decodeByKeyByte w := by
  have hnone := decodeByKeyByte_eq_none w
  rw [decodeByKeyByte, lowByte_toNat] at hnone ⊢
  split at hnone
  · next h => exact encodes_skp.of_top_and_low_byte htop h rfl
  · next h => exact encodes_sknp.of_top_and_low_byte htop h rfl
  · exact decodeWord_eq_none_of_low_byte (by decide) htop (hnone.mp rfl)

theorem decodeWord_of_top_F (htop : w.toNat / 4096 = 0xF) : decodeWord w = decodeByLowByte w := by
  have hnone := decodeByLowByte_eq_none w
  rw [decodeByLowByte, lowByte_toNat] at hnone ⊢
  split at hnone
  · next h => exact encodes_ldVxDT.of_top_and_low_byte htop h rfl
  · next h => exact encodes_ldVxK.of_top_and_low_byte htop h rfl
  · next h => exact encodes_ldDTVx.of_top_and_low_byte htop h rfl
  · next h => exact encodes_ldSTVx.of_top_and_low_byte htop h rfl
  · next h => exact encodes_addIVx.of_top_and_low_byte htop h rfl
  · next h => exact encodes_ldFVx.of_top_and_low_byte htop h rfl
  · next h => exact encodes_ldBVx.of_top_and_low_byte htop h rfl
  · next h => exact encodes_ldMemVx.of_top_and_low_byte htop h rfl
  · next h => exact encodes_ldVxMem.of_top_and_low_byte htop h rfl
  · exact decodeWord_eq_none_of_low_byte (by decide) htop (hnone.mp rfl)

/-- R106, R107: top nibble 5 or 9, whose one row fixes the low nibble at 0. -/
theorem decodeWord_of_register_skip {t : Nat} {p : Word} {build : Word → Instr} (he : Encodes p 0xF00F build)
    (hp : p.toNat = t * 4096 + 0) (htop : w.toNat / 4096 = t) (hrows : ∀ d ∈ opcodeTable,
      d.pattern.toNat / 4096 = t → d.mask = 0xF00F ∧ d.pattern.toNat % 16 ∈ [0]) :
    decodeWord w = if w.extractLsb' 0 4 = 0 then some (build w) else none := by
  split
  · next h => exact he.of_top_and_low_nibble htop ((lowNibble_eq_zero w).mp h) hp
  · next h => exact decodeWord_eq_none_of_low_nibble hrows htop (by simpa using (lowNibble_eq_zero w).not.mp h)

/-! ### The whole map -/

/-- R100: SYS has every word of top nibble 0 but the two the exact scan takes. -/
theorem decodeWord_of_top_0 (htop : w.toNat / 4096 = 0x0) (hcls : w ≠ 0x00E0) (hret : w ≠ 0x00EE) :
    decodeWord w = some (fmtNNN .sys w) := by
  refine sysOnlyAdvancesPc.1 w (BitVec.eq_of_toNat_eq ?_) hcls hret
  rw [and_F000_toNat, htop]
  rfl

/-- Settles O3: CLS and RET first, then by the top nibble, each arm by its row or its selector. -/
theorem tableLookupIsTheOpcodeMap : Obligations.TableLookupIsTheOpcodeMap := by
  unfold Obligations.TableLookupIsTheOpcodeMap
  intro w
  have hlt := w.isLt
  by_cases hcls : w = 0x00E0
  · rw [hcls, decodeWord_cls]
    rfl
  by_cases hret : w = 0x00EE
  · rw [hret, decodeWord_ret]
    rfl
  rw [decodeByNibbles, if_neg hcls, if_neg hret, topNibble_toNat]
  split
  · next h => exact decodeWord_of_top_0 h hcls hret
  · next h => exact encodes_jp.of_top h rfl
  · next h => exact encodes_call.of_top h rfl
  · next h => exact encodes_seImm.of_top h rfl
  · next h => exact encodes_sneImm.of_top h rfl
  · next h => exact decodeWord_of_register_skip encodes_seReg rfl h (by decide)
  · next h => exact encodes_ldImm.of_top h rfl
  · next h => exact encodes_addImm.of_top h rfl
  · next h => exact decodeWord_of_top_8 h
  · next h => exact decodeWord_of_register_skip encodes_sneReg rfl h (by decide)
  · next h => exact encodes_ldI.of_top h rfl
  · next h => exact encodes_jpV0.of_top h rfl
  · next h => exact encodes_rnd.of_top h rfl
  · next h => exact encodes_drw.of_top h rfl
  · next h => exact decodeWord_of_top_E h
  · simp only [imp_false] at *
    exact decodeWord_of_top_F (by omega)

/-- Settles O4: two rows that match any other word are the same row, and no two rows have the same pattern. -/
theorem onlyClsAndRetMatchTwoRows : Obligations.OnlyClsAndRetMatchTwoRows := by
  unfold Obligations.OnlyClsAndRetMatchTwoRows
  refine ⟨fun w j k hne hj hk => ?_, decodeWord_cls, decodeWord_ret⟩
  by_contra hother
  obtain ⟨hcls, hret⟩ := not_or.mp hother
  have hrow : opcodeTable[j.val] = opcodeTable[k.val] :=
    opcodeTable_unique _ _ w (row_mem _ j.isLt) (row_mem _ k.isLt) (eq_of_beq hj) (eq_of_beq hk) hcls hret
  have hnodup : (opcodeTable.map (·.pattern)).Nodup := by decide
  refine hne (Fin.ext ((hnodup.getElem_inj_iff (hi := by simp) (hj := by simp)).mp ?_))
  rw [List.getElem_map, List.getElem_map, hrow]

/-- Settles O6: the lookup computes on each word. -/
theorem wordsOfTheTableDecode : Obligations.WordsOfTheTableDecode := by
  unfold Obligations.WordsOfTheTableDecode
  decide

end Sys2Proof.Machine
end

section
/-! The words that no row matches (spec/30_encoding.md R69), read off the opcode map. -/

namespace Sys2Proof.Machine

variable {w : Word}

/-- The rows with top nibble 8 take nine of the sixteen low nibbles. -/
theorem decodeByLowNibble_eq_none_iff_mem (w : Word) : decodeByLowNibble w = none ↔
    w.toNat % 16 ∈ [0x8, 0x9, 0xA, 0xB, 0xC, 0xD, 0xF] := by
  rw [decodeByLowNibble_eq_none]
  simp only [List.mem_cons, List.not_mem_nil, or_false]
  omega

/-- Settles O5: by the top nibble; the arms that are not in the list always decode, the others fail by their
selector. -/
theorem illegalWordsAreExactlyThoseListed : Obligations.IllegalWordsAreExactlyThoseListed := by
  unfold Obligations.IllegalWordsAreExactlyThoseListed
  intro w
  have hlt := w.isLt
  by_cases hcls : w = 0x00E0
  · subst hcls
    decide
  by_cases hret : w = 0x00EE
  · subst hret
    decide
  rw [tableLookupIsTheOpcodeMap w, decodeByNibbles, if_neg hcls, if_neg hret, topNibble_toNat]
  split
  case h_6 h => simp [h, lowNibble_eq_zero]
  case h_9 h => simp [h, decodeByLowNibble_eq_none_iff_mem]
  case h_10 h => simp [h, lowNibble_eq_zero]
  case h_15 h => simp [h, decodeByKeyByte_eq_none]
  case h_16 =>
    simp only [imp_false] at *
    have h : w.toNat / 4096 = 15 := by omega
    simp [h, decodeByLowByte_eq_none]
  all_goals next h => simp [h]

end Sys2Proof.Machine
end

section
/-! Fatal conditions (spec/60_exceptions.md R180, R186, R188; spec/20_memory.md R44): every effect has one check or
none, so it raises the condition `effectCondition` names or completes. -/

namespace Sys2Proof.Machine

variable {s t : State} {r : Fault}

/-! ### One check -/

/-- The effect raises the condition, if there is one, and completes if there is none. -/
def CompletesUnless (condition : Option Fault) (e : Result) : Prop :=
  (∀ r, condition = some r → e = .fault r) ∧ (condition = none → ∃ t, e = .next t)

theorem completesUnless_none {e : Result} (h : e = .next t) : CompletesUnless none e :=
  ⟨nofun, fun _ => ⟨t, h⟩⟩

theorem completesUnless_some {e : Result} (h : e = .fault r) : CompletesUnless (some r) e := by
  refine ⟨fun r' hr => ?_, nofun⟩
  cases hr
  exact h

theorem withRange_completesUnless (base n : Nat) (t : State) :
    CompletesUnless (rangeCondition base n) (withRange base n (.next t)) := by
  by_cases h : 0 < n ∧ 0xFFF < base + (n - 1)
  · rw [rangeCondition, if_pos h]
    exact completesUnless_some (withRange_outside base n _ h.1 (by omega))
  · rw [rangeCondition, if_neg h]
    exact completesUnless_none (withRange_inside base n _ (by omega))

theorem withIndex_completesUnless (v : Byte) (e : Fin 16 → State) :
    CompletesUnless (domainCondition v) (withIndex v fun k => .next (e k)) := by
  by_cases h : 15 < v.toNat
  · rw [domainCondition, if_pos h]
    exact completesUnless_some (withIndex_outside v _ h)
  · rw [domainCondition, if_neg h]
    exact completesUnless_none (withIndex_inside v _ (by omega))

theorem exec_ret_completesUnless (s : State) : CompletesUnless (effectCondition .ret s) (exec .ret s) := by
  rw [effectCondition]
  cases hsp : s.sp with
  | empty => exact completesUnless_some (exec_ret_empty s hsp)
  | top k =>
    rw [if_neg (by rw [toInt_eq_empty]; exact Sp.noConfusion)]
    exact completesUnless_none (exec_ret_top s k hsp)

theorem exec_call_completesUnless (nnn : Addr12) (s : State) :
    CompletesUnless (effectCondition (.call nnn) s) (exec (.call nnn) s) := by
  rw [effectCondition]
  cases hp : s.sp.pushed with
  | none =>
    rw [if_pos ((pushed_eq_none s.sp).mp hp)]
    exact completesUnless_some (exec_call_full s nnn hp)
  | some k =>
    rw [if_neg (by rw [← pushed_eq_none, hp]; exact nofun)]
    exact completesUnless_none (exec_call_room s nnn k hp)

theorem exec_ldVxK_completes (x : RegIdx) (s : State) : ∃ t, exec (.ldVxK x) s = .next t := by
  by_cases hk : s.keys = 0
  · exact ⟨s, exec_ldVxK_none s x hk⟩
  · exact ⟨_, exec_ldVxK_some s x hk⟩

/-! ### All 35 effects -/

theorem exec_completesUnless (i : Instr) (s : State) : CompletesUnless (effectCondition i s) (exec i s) := by
  cases i with
  | sys | cls | jp | seImm | sneImm | seReg | sneReg | ldImm | addImm | ldReg | orReg | andReg | xorReg | addReg
  | subReg | subnReg | shr | shl | ldI | jpV0 | rnd | ldVxDT | ldDTVx | ldSTVx | addIVx =>
    exact completesUnless_none rfl
  | ret => exact exec_ret_completesUnless s
  | call nnn => exact exec_call_completesUnless nnn s
  | ldVxK x =>
    obtain ⟨t, ht⟩ := exec_ldVxK_completes x s
    exact completesUnless_none ht
  | skp x => exact withIndex_completesUnless (s.getV x) fun k => s.skipIf (isKeyDown s k)
  | sknp x => exact withIndex_completesUnless (s.getV x) fun k => s.skipIf (!isKeyDown s k)
  | ldFVx x => exact withIndex_completesUnless (s.getV x) fun digit => (s.setI (glyphAddr digit)).advance
  | drw | ldBVx | ldMemVx | ldVxMem => exact withRange_completesUnless _ _ _

/-- Settles O9: by the one check of each effect, or none. -/
theorem effectsCompleteOrRaiseTheirOneCondition : Obligations.EffectsCompleteOrRaiseTheirOneCondition := by
  unfold Obligations.EffectsCompleteOrRaiseTheirOneCondition
  exact exec_completesUnless

theorem exec_ne_refused (i : Instr) (s : State) (r : Refusal) : exec i s ≠ .refused r := by
  obtain ⟨hfault, hnext⟩ := exec_completesUnless i s
  cases hc : effectCondition i s with
  | none =>
    obtain ⟨t, ht⟩ := hnext hc
    rw [ht]
    exact nofun
  | some f =>
    rw [hfault f hc]
    exact nofun

/-- Settles O12: a step is a fetch's or a lookup's condition or an effect, and no effect is refused. -/
theorem noStepIsRefused : Obligations.NoStepIsRefused := by
  unfold Obligations.NoStepIsRefused
  intro s r
  obtain ⟨-, hstep⟩ | ⟨-, -, hstep⟩ | ⟨-, i, -, hstep⟩ := step_cases s
  · rw [hstep]
    exact nofun
  · rw [hstep]
    exact nofun
  · rw [hstep]
    exact exec_ne_refused i s r

/-! ### The range check and the fetch -/

/-- Settles O10: the lowest address above 0xFFF is `base` itself or 0x1000. -/
theorem rangeCheckReportsTheLowestAddress : Obligations.RangeCheckReportsTheLowestAddress := by
  unfold Obligations.RangeCheckReportsTheLowestAddress
  intro base n addr
  rw [outOfRange_eq_some]
  constructor
  · rintro ⟨hpos, hout, rfl⟩
    refine ⟨⟨by omega, by omega, by omega⟩, fun a _ _ _ => by omega⟩
  · rintro ⟨⟨hbase, hlt, habove⟩, hleast⟩
    have hmax := hleast (max base 0x1000) (by omega) (by omega) (by omega)
    exact ⟨by omega, by omega, by omega⟩

/-- Settles O8: both are a fetch from above 0xFFE, which reports `pc` or 0x1000, whichever is higher. -/
theorem fetchAboveTheTopFaults : Obligations.FetchAboveTheTopFaults := by
  unfold Obligations.FetchAboveTheTopFaults
  refine fun s => ⟨fun htop => ?_, fun habove => ?_⟩
  · rw [step_eq_fault_of_pc_above (by omega), htop]
    rfl
  · rw [step_eq_fault_of_pc_above (by omega), Nat.max_eq_left habove]

/-! ### Operations repeated -/

/-- An operation that leaves the state makes no difference to a session, however often it is repeated. -/
theorem session_replicate_append {op : Operation} {a : Response} (h : perform op s = some (s, a)) (n : Nat)
    (ops : List Operation) : session (List.replicate n op ++ ops) s = session ops s := by
  induction n with
  | zero => rfl
  | succ n ih =>
    rw [List.replicate_succ, List.cons_append, session, h]
    exact ih

/-- R180's codes run from 1 to 5. -/
theorem code_bounds (r : Fault) : 1 ≤ r.code ∧ r.code ≤ 5 := by
  cases r <;> simp [Fault.code]

/-- Settles O11: the step's answer leaves the state it was called in, so it is called there again; the pairs are
R180's rows. -/
theorem conditionLeavesTheStateAndRepeats : Obligations.ConditionLeavesTheStateAndRepeats := by
  unfold Obligations.ConditionLeavesTheStateAndRepeats
  refine ⟨fun s r h => ?_, rfl, fun _ => rfl, fun _ => rfl, fun _ => rfl, fun _ => rfl, fun _ => rfl⟩
  have hperform := perform_step_of_fault h
  refine ⟨hperform, fun n => ?_, rfl, code_bounds r⟩
  simpa [session] using session_replicate_append hperform n []

end Sys2Proof.Machine
end

section
/-! The next state of an instruction whose effect has a check or a case of its own: one inversion lemma each. -/

namespace Sys2Proof.Machine

variable {s t : State} {x : RegIdx}

theorem exec_ret_eq_next (h : exec .ret s = .next t) :
    ∃ k, s.sp = .top k ∧ (s.setPc s.stack[k.val]).setSp (spBelow k) = t := by
  cases hsp : s.sp with
  | empty => simp [exec_ret_empty s hsp] at h
  | top k =>
    rw [exec_ret_top s k hsp] at h
    exact ⟨k, rfl, Host.Outcome.next.inj h⟩

theorem exec_call_eq_next {nnn : Addr12} (h : exec (.call nnn) s = .next t) : ∃ k, s.sp.pushed = some k ∧
    ((s.setSp (.top k)).setSlot k (s.pc + 2)).setPc (addrOperand nnn) = t := by
  cases hp : s.sp.pushed with
  | none => simp [exec_call_full s nnn hp] at h
  | some k =>
    rw [exec_call_room s nnn k hp] at h
    exact ⟨k, rfl, Host.Outcome.next.inj h⟩

theorem exec_ldVxK_eq_next (h : exec (.ldVxK x) s = .next t) :
    s = t ∨ (s.setV x (keyByte s.lastKey)).advance = t := by
  by_cases hk : s.keys = 0
  · rw [exec_ldVxK_none s x hk] at h
    exact .inl (Host.Outcome.next.inj h)
  · rw [exec_ldVxK_some s x hk] at h
    exact .inr (Host.Outcome.next.inj h)

theorem exec_skp_eq_next (h : exec (.skp x) s = .next t) : ∃ c, s.skipIf c = t := by
  simp only [exec, execSkp, withIndex_eq_next] at h
  obtain ⟨_, h⟩ := h
  exact ⟨_, Host.Outcome.next.inj h⟩

theorem exec_sknp_eq_next (h : exec (.sknp x) s = .next t) : ∃ c, s.skipIf c = t := by
  simp only [exec, execSknp, withIndex_eq_next] at h
  obtain ⟨_, h⟩ := h
  exact ⟨_, Host.Outcome.next.inj h⟩

theorem exec_ldFVx_eq_next (h : exec (.ldFVx x) s = .next t) : ∃ a, (s.setI a).advance = t := by
  simp only [exec, execLdFVx, withIndex_eq_next] at h
  obtain ⟨_, h⟩ := h
  exact ⟨_, Host.Outcome.next.inj h⟩

theorem step_next_cases (h : step s = .next t) :
    s.pc.toNat ≤ 0xFFE ∧ ∃ i, decodeWord (wordAtPc s) = some i ∧ exec i s = .next t := by
  obtain ⟨-, hstep⟩ | ⟨-, -, hstep⟩ | ⟨hpc, i, hi, hstep⟩ := step_cases s
  · simp [hstep] at h
  · simp [hstep] at h
  · exact ⟨hpc, i, hi, hstep.symm.trans h⟩

end Sys2Proof.Machine
end

section
/-! The frame of every instruction: the parts of the state its rule names (spec/40_control_flow.md to
spec/44_keys_timers.md), and that it keeps every other part. Then the two timers and VF, which are parts like any
other (spec/10_state.md R14, R23). -/

namespace Sys2Proof.Machine

variable {s t : State} {i : Instr}

/-- The parts an instruction may change; a step's `pc` is no part. -/
def written : Instr → Part → Prop
  | .sys _ | .jp _ | .jpV0 _ | .seImm _ _ | .sneImm _ _ | .seReg _ _ | .sneReg _ _ | .skp _ | .sknp _ => nothing
  | .ldImm x _ | .addImm x _ | .ldReg x _ | .orReg x _ | .andReg x _ | .xorReg x _ | .ldVxDT x | .ldVxK x =>
    onlyReg x
  | .addReg x _ | .subReg x _ | .subnReg x _ | .shr x _ | .shl x _ => regAndFlag x
  | .rnd x _ => fun p => p = .reg x ∨ p = .draws
  | .ldVxMem x => fun p => ∃ k : RegIdx, k.val ≤ x.val ∧ p = .reg k
  | .ldI _ | .addIVx _ | .ldFVx _ => fun p => p = .addressRegister
  | .ldBVx _ | .ldMemVx _ => fun p => ∃ a, p = .byte a
  | .cls => fun p => ∃ r c, p = .pixel r c
  | .drw _ _ _ => fun p => p = .reg 15 ∨ ∃ r c, p = .pixel r c
  | .ret => fun p => p = .stackPointer
  | .call _ => fun p => p = .stackPointer ∨ ∃ k, p = .slot k
  | .ldDTVx _ => fun p => p = .delayTimer
  | .ldSTVx _ => fun p => p = .soundTimer

/-- A frame proved of the updates before `pc` is set. -/
theorem keeps_next_setPc {changed : Part → Prop} {u : State} {a : Word} (h : (.next (u.setPc a) : Result) = .next t)
    (hu : KeepsAllBut changed s u) : KeepsAllBut changed s t := by
  cases h
  exact hu.trans (keeps_setPc _ u a)

/-- The whole of the frames, by the instruction. -/
theorem keeps_written (h : exec i s = .next t) : KeepsAllBut (written i) s t := by
  cases i with
  | sys | jp | jpV0 | seImm | sneImm | seReg | sneReg => exact keeps_next_setPc h (.refl _ s)
  | ldImm x | addImm x | ldReg x | orReg x | andReg x | xorReg x | ldVxDT x =>
    exact keeps_next_setPc h (keeps_setV s x _ rfl)
  | addReg x => exact keeps_next_setPc h ((keeps_setV s x _ (.inl rfl)).trans (keeps_setV _ vf _ (.inr rfl)))
  | subReg x | subnReg x | shr x | shl x =>
    exact keeps_next_setPc h ((keeps_setV s vf _ (.inr rfl)).trans (keeps_setV _ x _ (.inl rfl)))
  | rnd x => exact keeps_next_setPc h ((keeps_setV s x _ (.inl rfl)).trans (keeps_countDraw _ (.inr rfl)))
  | ldI | addIVx => exact keeps_next_setPc h (keeps_setI s _ rfl)
  | cls => exact keeps_next_setPc h (keeps_setDisp s _ fun r c => ⟨r, c, rfl⟩)
  | ldDTVx => exact keeps_next_setPc h (keeps_setDT s _ rfl)
  | ldSTVx => exact keeps_next_setPc h (keeps_setST s _ rfl)
  | ret =>
    obtain ⟨k, -, rfl⟩ := exec_ret_eq_next h
    exact (keeps_setPc _ s _).trans (keeps_setSp _ _ rfl)
  | call =>
    obtain ⟨k, -, rfl⟩ := exec_call_eq_next h
    exact ((keeps_setSp s _ (.inl rfl)).trans (keeps_setSlot _ k _ (.inr ⟨k, rfl⟩))).trans (keeps_setPc _ _ _)
  | ldVxK x =>
    obtain rfl | rfl := exec_ldVxK_eq_next h
    · exact .refl _ _
    · exact (keeps_setV (changed := onlyReg x) s x _ rfl).trans (keeps_setPc _ _ _)
  | skp =>
    obtain ⟨c, rfl⟩ := exec_skp_eq_next h
    exact keeps_setPc _ s _
  | sknp =>
    obtain ⟨c, rfl⟩ := exec_sknp_eq_next h
    exact keeps_setPc _ s _
  | ldFVx =>
    obtain ⟨a, rfl⟩ := exec_ldFVx_eq_next h
    exact (keeps_setI (changed := written (.ldFVx _)) s a rfl).trans (keeps_setPc _ _ _)
  | drw =>
    obtain ⟨_, h⟩ := (withRange_eq_next _ _ _ t).mp h
    exact keeps_next_setPc h
      ((keeps_setDisp s _ fun r c => .inr ⟨r, c, rfl⟩).trans (keeps_setV _ vf _ (.inl rfl)))
  | ldBVx | ldMemVx =>
    obtain ⟨_, h⟩ := (withRange_eq_next _ _ _ t).mp h
    exact keeps_next_setPc h (keeps_storeBytes s _ _ fun k _ => ⟨_, rfl⟩)
  | ldVxMem x =>
    obtain ⟨_, h⟩ := (withRange_eq_next _ _ _ t).mp h
    exact keeps_next_setPc h (keeps_loadRegs s x _ fun k hk => ⟨k, hk, rfl⟩)

/-! ### The timers -/

theorem written_delayTimer (h : written i .delayTimer) : ∃ x, i = .ldDTVx x := by
  cases i <;> simp [written, nothing, onlyReg, regAndFlag] at h ⊢

theorem written_soundTimer (h : written i .soundTimer) : ∃ x, i = .ldSTVx x := by
  cases i <;> simp [written, nothing, onlyReg, regAndFlag] at h ⊢

/-- Settles O46: each timer is written by its own load alone. -/
theorem stepsDoNotCountTimersDown : Obligations.StepsDoNotCountTimersDown := by
  unfold Obligations.StepsDoNotCountTimersDown
  intro s t h
  obtain ⟨-, i, hi, hexec⟩ := step_next_cases h
  refine ⟨fun hDT => keeps_written hexec .delayTimer fun hw => ?_,
    fun hST => keeps_written hexec .soundTimer fun hw => ?_⟩
  · obtain ⟨x, rfl⟩ := written_delayTimer hw
    exact hDT x hi
  · obtain ⟨x, rfl⟩ := written_soundTimer hw
    exact hST x hi

/-! ### VF -/

theorem flag_of_addReg {x y : RegIdx} (h : exec (.addReg x y) s = .next t) : ∃ c, t.getV 15 = flagByte c := by
  cases h
  exact ⟨_, (s.setV x _).setV_getV_self vf _⟩

theorem flag_of_drw {x y : RegIdx} {n : Count} (h : exec (.drw x y n) s = .next t) : ∃ c, t.getV 15 = flagByte c := by
  obtain ⟨_, h⟩ := (withRange_eq_next _ _ _ t).mp h
  cases h
  exact ⟨_, (s.setDisp _).setV_getV_self vf _⟩

/-- The flag written before the result stays unless VF is the destination. -/
theorem flag_of_flag_then_result {x : RegIdx} {c : Bool} {v : Byte} (hx : x ≠ 15)
    (h : (.next ((s.setFlag c).setV x v).advance : Result) = .next t) : ∃ c, t.getV 15 = flagByte c := by
  cases h
  exact ⟨c, ((s.setFlag c).setV_getV_ne x v vf hx).trans (s.setV_getV_self vf _)⟩

/-- Settles O29: VF is the part `reg 15`, written by the flag writers and by its own loads; a flag is 0 or 1. -/
theorem onlyFlagWritersAndDestinationsChangeVF : Obligations.OnlyFlagWritersAndDestinationsChangeVF := by
  unfold Obligations.OnlyFlagWritersAndDestinationsChangeVF
  constructor
  · intro i s t h hflag hdrw himm hreg hDT hK hmem
    refine keeps_written h (.reg 15) fun hw => ?_
    cases i with
    | addReg x y | subReg x y | subnReg x y | shr x y | shl x y => simpa using hflag x y
    | drw x y n => exact hdrw x y n rfl
    | ldImm x kk | addImm x kk | rnd x kk =>
      obtain rfl : 15 = x := by simpa [written, onlyReg] using hw
      simpa using himm kk
    | ldReg x y | orReg x y | andReg x y | xorReg x y =>
      obtain rfl : 15 = x := by simpa [written, onlyReg] using hw
      simpa using hreg y
    | ldVxDT x | ldVxK x =>
      obtain rfl : 15 = x := by simpa [written, onlyReg] using hw
      contradiction
    | ldVxMem x =>
      obtain ⟨k, hk, hkx⟩ := hw
      cases hkx
      exact hmem (congrArg _ (Fin.last_le_iff.mp hk))
    | _ => simp [written, nothing] at hw
  · intro x y n s t h
    suffices hc : ∃ c, t.getV 15 = flagByte c by
      obtain ⟨c, hc⟩ := hc
      exact hc ▸ flagByte_cases c
    obtain h | h | ⟨hx, h | h | h | h⟩ := h
    · exact flag_of_addReg h
    · exact flag_of_drw h
    · exact flag_of_flag_then_result hx h
    · exact flag_of_flag_then_result hx h
    · exact flag_of_flag_then_result hx h
    · exact flag_of_flag_then_result hx h

end Sys2Proof.Machine
end

section
/-! The invariant (spec/10_state.md R19, R24; spec/40_control_flow.md R103): canonical memory, `pc` at most 0x10FE and
every slot at most 0x1000, kept by every step and by every operation of the host. -/

namespace Sys2Proof.Machine

variable {s t : State} {i : Instr}

/-! ### Memory and slots after an instruction -/

/-- The two stores write a list of bytes within the address space; no other instruction writes memory. -/
theorem mem_of_exec_next (h : exec i s = .next t) : t.mem = s.mem ∨
    ∃ vs, s.I.toNat + vs.length ≤ 0x1000 ∧ t.mem = storeBytes s.mem s.I.toNat vs := by
  cases i with
  | sys | cls | jp | jpV0 | seImm | sneImm | seReg | sneReg | ldImm | addImm | ldReg | orReg | andReg | xorReg
  | addReg | subReg | subnReg | shr | shl | rnd | ldI | addIVx | ldVxDT | ldDTVx | ldSTVx =>
    cases h
    exact .inl rfl
  | ret =>
    obtain ⟨k, -, rfl⟩ := exec_ret_eq_next h
    exact .inl rfl
  | call =>
    obtain ⟨k, -, rfl⟩ := exec_call_eq_next h
    exact .inl rfl
  | ldVxK =>
    obtain rfl | rfl := exec_ldVxK_eq_next h
    · exact .inl rfl
    · exact .inl rfl
  | skp =>
    obtain ⟨c, rfl⟩ := exec_skp_eq_next h
    exact .inl rfl
  | sknp =>
    obtain ⟨c, rfl⟩ := exec_sknp_eq_next h
    exact .inl rfl
  | ldFVx =>
    obtain ⟨a, rfl⟩ := exec_ldFVx_eq_next h
    exact .inl rfl
  | drw | ldVxMem =>
    obtain ⟨_, h⟩ := (withRange_eq_next _ _ _ t).mp h
    cases h
    exact .inl rfl
  | ldBVx x =>
    obtain ⟨hin, h⟩ := (withRange_eq_next _ _ _ t).mp h
    cases h
    exact .inr ⟨bcdDigits (s.getV x), by simpa using hin, rfl⟩
  | ldMemVx x =>
    obtain ⟨hin, h⟩ := (withRange_eq_next _ _ _ t).mp h
    cases h
    exact .inr ⟨regsUpTo s x, by simpa [regsUpTo_length] using hin, rfl⟩

theorem wf_mem_of_exec_next (h : exec i s = .next t) (hs : Memory.wf s.mem) : Memory.wf t.mem := by
  obtain hmem | ⟨vs, hin, hmem⟩ := mem_of_exec_next h
  · rwa [hmem]
  · rw [hmem]
    exact wf_storeBytes vs s.mem _ hs hin

theorem written_slot {k : Fin 16} (h : written i (.slot k)) : ∃ nnn, i = .call nnn := by
  cases i <;> simp [written, nothing, onlyReg, regAndFlag] at h ⊢

/-- R103: a slot holds what it held, or the return address of the CALL that filled it. -/
theorem slot_of_exec_next (h : exec i s = .next t) (k : Fin 16) :
    t.stack[k.val] = s.stack[k.val] ∨ t.stack[k.val] = s.pc + 2 := by
  by_cases hw : written i (.slot k)
  · obtain ⟨nnn, rfl⟩ := written_slot hw
    obtain ⟨j, -, rfl⟩ := exec_call_eq_next h
    have hget := (s.setSp (.top j)).setSlot_get j (s.pc + 2) k
    split_ifs at hget
    · exact .inr hget
    · exact .inl hget
  · exact .inl (keeps_written h _ hw)

/-! ### The bound of `pc` -/

theorem fetched_pc_add_two (hpc : s.pc.toNat ≤ 0xFFE) : (s.pc + 2).toNat ≤ 0x1000 := by
  rw [BitVec.toNat_add]
  have h2 : (2 : Word).toNat = 2 := rfl
  omega

/-- R19: from a fetched address and with return addresses at most 0x1000 no row of R17's table goes above 0x10FE. -/
theorem nextPc_le (hpc : s.pc.toNat ≤ 0xFFE) (hslots : ∀ k : Fin 16, s.stack[k.val].toNat ≤ 0x1000) :
    nextPc i s ≤ 0x10FE := by
  have hby2 : (s.pc.toNat + 2) % 65536 ≤ 0x10FE := by omega
  have hby4 : (s.pc.toNat + 4) % 65536 ≤ 0x10FE := by omega
  cases i with
  | jp nnn | call nnn =>
    have := nnn.isLt
    simp only [nextPc]
    omega
  | jpV0 nnn =>
    have := nnn.isLt
    have := (s.getV 0).isLt
    simp only [nextPc]
    omega
  | ret =>
    cases hsp : s.sp with
    | empty =>
      simp only [nextPc, hsp]
      omega
    | top k =>
      have := hslots k
      simp only [nextPc, hsp]
      omega
  | seImm | sneImm | seReg | sneReg | skp | sknp =>
    simp only [nextPc]
    split <;> assumption
  | ldVxK =>
    simp only [nextPc]
    split
    · omega
    · exact hby2
  | _ => exact hby2

/-! ### Steps -/

theorem inv_of_step_next (hs : Inv s) (h : step s = .next t) : Inv t := by
  obtain ⟨hpc, i, -, hexec⟩ := step_next_cases h
  refine ⟨wf_mem_of_exec_next hexec hs.memory, ?_, fun k => ?_⟩
  · rw [exec_next_pc hexec]
    exact nextPc_le hpc hs.slots
  · obtain hold | hnew := slot_of_exec_next hexec k
    · exact hold ▸ hs.slots k
    · exact hnew ▸ fetched_pc_add_two hpc

/-- Settles O56: memory is written in range by the two stores, `pc` follows R17's table, and a slot by a CALL that was
fetched. -/
theorem everyStepKeepsTheInvariant : Obligations.EveryStepKeepsTheInvariant := by
  unfold Obligations.EveryStepKeepsTheInvariant
  exact fun _ _ => inv_of_step_next

/-! ### The host's operations -/

/-- The invariant speaks of memory, `pc` and the slots alone. -/
theorem Inv.congr (hs : Inv s) (hmem : t.mem = s.mem) (hpc : t.pc = s.pc) (hstack : t.stack = s.stack) : Inv t :=
  ⟨hmem ▸ hs.memory, hpc ▸ hs.pcBound, hstack ▸ hs.slots⟩

theorem inv_reset : Inv State.reset :=
  ⟨reset_mem_wf, by decide, by decide⟩

/-- Settles O55: memory lists nothing, and `pc` and the sixteen slots are small numbers. -/
theorem resetMeetsTheInvariant : Obligations.ResetMeetsTheInvariant := by
  unfold Obligations.ResetMeetsTheInvariant
  exact inv_reset

theorem inv_of_load {bytes : List Byte} (hs : Inv s) (h : load bytes s = some t) : Inv t := by
  obtain ⟨hlen, rfl⟩ := load_eq_some.mp h
  exact ⟨wf_storeBytes bytes s.mem 0x200 hs.memory (by omega), hs.pcBound, hs.slots⟩

theorem inv_of_perform {op : Operation} {a : Response} (hs : Inv s) (h : perform op s = some (t, a)) : Inv t := by
  cases op with
  | reset =>
    cases h
    exact inv_reset.congr rfl rfl rfl
  | load bytes =>
    obtain ⟨u, hload, hpair⟩ := Option.map_eq_some_iff.mp h
    cases hpair
    exact inv_of_load hs hload
  | step =>
    rw [perform] at h
    split at h
    · next hstep =>
      cases h
      exact inv_of_step_next hs hstep
    · cases h
      exact hs
    · cases h
  | tick | keyDown k | keyUp k | isKeyDown k | readDisplay =>
    cases h
    exact hs.congr rfl rfl rfl

/-- Settles O57: by induction on the operations of the session. -/
theorem everySessionKeepsTheInvariant : Obligations.EverySessionKeepsTheInvariant := by
  unfold Obligations.EverySessionKeepsTheInvariant
  intro ops
  induction ops with
  | nil =>
    intro s t hs h
    cases h
    exact hs
  | cons op ops ih =>
    intro s t hs h
    rw [session] at h
    split at h
    · next hop => exact ih _ t (inv_of_perform hs hop) h
    · cases h

end Sys2Proof.Machine
end

section
/-! What a step does not read (spec/10_state.md R22; spec/70_reset_and_hazards.md R211, R213): `lastKey` while no key is
down, and the slots above the top of the stack. An update of such a part before an effect is the same update after
it. -/

namespace Sys2Proof.Machine

variable {s t : State} {i : Instr}

/-! ### An update after an effect -/

/-- The answer with its next state, if there is one, updated by `f`. -/
def mapNext (f : State → State) : Result → Result
  | .next t => .next (f t)
  | .fault r => .fault r
  | .refused r => .refused r

theorem mapNext_withRange (f : State → State) (base n : Nat) (e : Result) :
    mapNext f (withRange base n e) = withRange base n (mapNext f e) := by
  unfold withRange
  split <;> rfl

theorem mapNext_withIndex (f : State → State) (v : Byte) (e : Fin 16 → Result) :
    mapNext f (withIndex v e) = withIndex v fun k => mapNext f (e k) := by
  unfold withIndex
  split <;> rfl

/-- Two states with the same `pc` and memory fetch the same: both steps raise the same condition, or both are the
effect of one instruction. -/
theorem step_alike (hpc : t.pc = s.pc) (hmem : t.mem = s.mem) :
    (∃ r, step s = .fault r ∧ step t = .fault r) ∨ ∃ i, step s = exec i s ∧ step t = exec i t := by
  have hword : wordAtPc t = wordAtPc s := by
    rw [wordAtPc, State.byteAt, State.byteAt, hpc, hmem]
    rfl
  obtain ⟨hout, hs⟩ | ⟨hin, hd, hs⟩ | ⟨hin, i, hd, hs⟩ := step_cases s
  · exact .inl ⟨_, hs, hpc ▸ step_eq_fault_of_pc_above (hpc ▸ hout)⟩
  · exact .inl ⟨_, hs, hword ▸ step_eq_fault_of_decodeWord_eq_none (hpc ▸ hin) (hword ▸ hd)⟩
  · exact .inr ⟨i, hs, step_eq_exec_of_decodeWord_eq_some (hpc ▸ hin) (hword ▸ hd)⟩

/-! ### `lastKey` -/

theorem exec_setLastKey (hkeys : s.keys = 0) (k : KeyIdx) (i : Instr) :
    exec i (s.setLastKey k) = mapNext (·.setLastKey k) (exec i s) := by
  cases i with
  | sys | cls | jp | seImm | sneImm | seReg | sneReg | ldImm | addImm | ldReg | orReg | andReg | xorReg | addReg
  | subReg | subnReg | shr | shl | ldI | jpV0 | rnd | ldVxDT | ldDTVx | ldSTVx | addIVx => rfl
  | ret =>
    cases hsp : s.sp with
    | empty =>
      rw [exec_ret_empty s hsp, exec_ret_empty (s.setLastKey k) hsp]
      rfl
    | top j =>
      rw [exec_ret_top s j hsp, exec_ret_top (s.setLastKey k) j hsp]
      rfl
  | call nnn =>
    cases hp : s.sp.pushed with
    | none =>
      rw [exec_call_full s nnn hp, exec_call_full (s.setLastKey k) nnn hp]
      rfl
    | some j =>
      rw [exec_call_room s nnn j hp, exec_call_room (s.setLastKey k) nnn j hp]
      rfl
  | ldVxK x =>
    rw [exec_ldVxK_none s x hkeys, exec_ldVxK_none (s.setLastKey k) x hkeys]
    rfl
  | skp | sknp | ldFVx =>
    simp only [exec, execSkp, execSknp, execLdFVx, mapNext_withIndex]
    rfl
  | drw | ldBVx | ldMemVx | ldVxMem =>
    simp only [exec, execDrw, execLdBVx, execLdMemVx, execLdVxMem, mapNext_withRange]
    rfl

theorem step_setLastKey (hkeys : s.keys = 0) (k : KeyIdx) :
    step (s.setLastKey k) = mapNext (·.setLastKey k) (step s) := by
  obtain ⟨r, hs, ht⟩ | ⟨i, hs, ht⟩ := step_alike (s := s) (t := s.setLastKey k) rfl rfl
  · rw [hs, ht]
    rfl
  · rw [hs, ht, exec_setLastKey hkeys]

theorem not_written_keyMask : ¬ written i .keyMask := by
  cases i <;> simp [written, nothing, onlyReg, regAndFlag]

/-- Settles O53: a step commutes with a write of `lastKey` while no key is down, and no instruction writes `keys`. -/
theorem lastKeyIsNotReadBeforeAKeyDown : Obligations.LastKeyIsNotReadBeforeAKeyDown := by
  unfold Obligations.LastKeyIsNotReadBeforeAKeyDown
  intro s k hkeys
  rw [step_setLastKey hkeys k]
  refine ⟨fun t ht => ⟨?_, by rw [ht]; rfl⟩, fun r hr => by rw [hr]; rfl⟩
  obtain ⟨-, i, -, hexec⟩ := step_next_cases ht
  have hkept : t.keys = s.keys := keeps_written hexec .keyMask not_written_keyMask
  rw [hkept, hkeys]

/-! ### Slots above the top -/

/-- All sixteen slots replaced. -/
def State.withStack (s : State) (stack : Vector Word 16) : State := { s with stack := stack }

theorem exec_withStack (stack : Vector Word 16) (hret : i ≠ .ret) (hcall : ∀ nnn, i ≠ .call nnn) :
    exec i (s.withStack stack) = mapNext (·.withStack stack) (exec i s) := by
  cases i with
  | sys | cls | jp | seImm | sneImm | seReg | sneReg | ldImm | addImm | ldReg | orReg | andReg | xorReg | addReg
  | subReg | subnReg | shr | shl | ldI | jpV0 | rnd | ldVxDT | ldDTVx | ldSTVx | addIVx => rfl
  | ret => exact absurd rfl hret
  | call nnn => exact absurd rfl (hcall nnn)
  | ldVxK x =>
    by_cases hk : s.keys = 0
    · rw [exec_ldVxK_none s x hk, exec_ldVxK_none (s.withStack stack) x hk]
      rfl
    · rw [exec_ldVxK_some s x hk, exec_ldVxK_some (s.withStack stack) x hk]
      rfl
  | skp | sknp | ldFVx =>
    simp only [exec, execSkp, execSknp, execLdFVx, mapNext_withIndex]
    rfl
  | drw | ldBVx | ldMemVx | ldVxMem =>
    simp only [exec, execDrw, execLdBVx, execLdMemVx, execLdVxMem, mapNext_withRange]
    rfl

/-- Two answers that are the same but for slots above the top. -/
def AnswersAgree (e e' : Result) : Prop :=
  (∀ s', e = .next s' → ∃ t', e' = .next t' ∧ AgreeBelowTop s' t') ∧ ∀ r, e = .fault r → e' = .fault r

theorem answersAgree_next {s' t' : State} {e e' : Result} (he : e = .next s') (he' : e' = .next t')
    (h : AgreeBelowTop s' t') : AnswersAgree e e' := by
  subst he he'
  refine ⟨fun u hu => ?_, nofun⟩
  cases hu
  exact ⟨t', rfl, h⟩

theorem answersAgree_fault {r : Fault} {e e' : Result} (he : e = .fault r) (he' : e' = .fault r) :
    AnswersAgree e e' := by
  subst he he'
  exact ⟨nofun, fun _ h => h⟩

theorem exec_ret_agree (h : AgreeBelowTop s t) : AnswersAgree (exec .ret s) (exec .ret t) := by
  obtain ⟨ht, hslots⟩ := h
  have hsp' : t.sp = s.sp := by rw [ht]
  cases hsp : s.sp with
  | empty =>
    refine answersAgree_fault (exec_ret_empty s hsp) ((exec_ret_empty t (hsp'.trans hsp)).trans ?_)
    rw [ht]
  | top k =>
    refine answersAgree_next (exec_ret_top s k hsp) (exec_ret_top t k (hsp'.trans hsp)) ⟨?_, fun j hj => ?_⟩
    · have htop : t.stack[k.val] = s.stack[k.val] := hslots k (by rw [hsp]; rfl)
      rw [htop, ht]
      rfl
    · have hj' : (j.val : Int) ≤ k.val - 1 := spBelow_toInt k ▸ hj
      have hk : s.sp.toInt = k.val := (toInt_eq_top s.sp k).mpr hsp
      exact hslots j (by omega)

theorem exec_call_agree (nnn : Addr12) (h : AgreeBelowTop s t) :
    AnswersAgree (exec (.call nnn) s) (exec (.call nnn) t) := by
  obtain ⟨ht, hslots⟩ := h
  have hpc : t.pc = s.pc := by rw [ht]
  have hsp : t.sp = s.sp := by rw [ht]
  cases hp : s.sp.pushed with
  | none => exact answersAgree_fault (exec_call_full s nnn hp) (hpc ▸ exec_call_full t nnn (hsp ▸ hp))
  | some k =>
    refine answersAgree_next (exec_call_room s nnn k hp) (exec_call_room t nnn k (hsp ▸ hp)) ⟨?_, fun j hj => ?_⟩
    · rw [ht]
      rfl
    · have hk : (k.val : Int) = s.sp.toInt + 1 := (pushed_eq_some s.sp k).mp hp
      refine ((t.setSp (.top k)).setSlot_get k (t.pc + 2) j).trans
        (.trans ?_ ((s.setSp (.top k)).setSlot_get k (s.pc + 2) j).symm)
      split
      · rw [hpc]
      · next hne =>
        have hj' : (j.val : Int) ≤ k.val := hj
        have hne' : k.val ≠ j.val := Fin.val_ne_of_ne hne
        exact hslots j (by omega)

theorem written_stackPointer (h : written i .stackPointer) : i = .ret ∨ ∃ nnn, i = .call nnn := by
  cases i <;> simp [written, nothing, onlyReg, regAndFlag] at h ⊢

theorem exec_agree (i : Instr) (h : AgreeBelowTop s t) : AnswersAgree (exec i s) (exec i t) := by
  by_cases hret : i = .ret
  · exact hret ▸ exec_ret_agree h
  by_cases hcall : ∃ nnn, i = .call nnn
  · obtain ⟨nnn, rfl⟩ := hcall
    exact exec_call_agree nnn h
  obtain ⟨ht, hslots⟩ := h
  have hexec : exec i t = mapNext (·.withStack t.stack) (exec i s) := by
    conv_lhs => rw [ht]
    exact exec_withStack t.stack hret (not_exists.mp hcall)
  cases he : exec i s with
  | next s' =>
    rw [he] at hexec
    refine answersAgree_next rfl hexec ⟨rfl, fun j hj => ?_⟩
    have hsp : s'.sp = s.sp := keeps_written he .stackPointer fun hw => (written_stackPointer hw).elim hret hcall
    have hslot : s'.stack[j.val] = s.stack[j.val] := keeps_written he (.slot j) fun hw => hcall (written_slot hw)
    exact (hslots j (hsp ▸ hj)).trans hslot.symm
  | fault r => exact answersAgree_fault rfl (by rw [hexec, he]; rfl)
  | refused r => exact absurd he (exec_ne_refused i s r)

/-- Settles O54: RET reads the top slot and CALL writes the one above it; every other effect leaves the stack alone. -/
theorem slotsAboveTheTopAreNeverRead : Obligations.SlotsAboveTheTopAreNeverRead := by
  unfold Obligations.SlotsAboveTheTopAreNeverRead
  intro s t h
  have hpc : t.pc = s.pc := by rw [h.1]
  have hmem : t.mem = s.mem := by rw [h.1]
  suffices hagree : AnswersAgree (step s) (step t) from hagree
  obtain ⟨r, hs, ht⟩ | ⟨i, hs, ht⟩ := step_alike hpc hmem
  · exact answersAgree_fault hs ht
  · rw [hs, ht]
    exact exec_agree i h

end Sys2Proof.Machine
end

section
/-! Sequences of two instructions and one draw of RND (spec/40_control_flow.md R101, R103; spec/41_alu.md R131;
spec/42_index_memory.md R144, R145; spec/20_memory.md R51). -/

namespace Sys2Proof.Machine

variable {s t u : State}

/-! ### CALL, then RET -/

theorem toInt_injective {p q : Sp} (h : p.toInt = q.toInt) : p = q := by
  cases q with
  | empty => exact (toInt_eq_empty p).mp h
  | top k => exact (toInt_eq_top p k).mp h

/-- A part that two updates may have changed but that ends as it was. -/
theorem KeepsAllBut.of_same {changed changed' : Part → Prop} (h : KeepsAllBut changed s t)
    (hback : ∀ p, changed p → ¬ changed' p → p.Same s t) : KeepsAllBut changed' s t := by
  intro p hp
  by_cases hc : changed p
  · exact hback p hc hp
  · exact h p hc

/-- Settles O19: the RET pops the slot the CALL filled, and `sp` is one up and one down. -/
theorem returnAfterCallResumes : Obligations.ReturnAfterCallResumes := by
  unfold Obligations.ReturnAfterCallResumes
  intro nnn s hroom
  obtain ⟨k, hk⟩ : ∃ k : Fin 16, (k.val : Int) = s.sp.toInt + 1 := by
    cases hp : s.sp.pushed with
    | none => exact absurd ((pushed_eq_none s.sp).mp hp) (by omega)
    | some k => exact ⟨k, (pushed_eq_some s.sp k).mp hp⟩
  obtain ⟨t, ht, hsp, hslot, -, hcall⟩ := exec_call_pushes nnn k hk
  obtain ⟨u, hu, hpc, hsp', hret⟩ := exec_ret_pops (s := t) k (hsp.trans hk.symm)
  have hback : u.sp = s.sp := toInt_injective (by omega)
  refine ⟨t, u, ht, hu, hpc.trans hslot, hback, ?_⟩
  refine (hcall.trans (hret.mono fun p hp => .inl hp)).of_same fun p hp hother => ?_
  obtain rfl | rfl := hp
  · exact hback
  · exact absurd ⟨k, hk, rfl⟩ hother

/-! ### RND -/

/-- Settles O28: the byte drawn is masked bit by bit, and the counter is the one other part written. -/
theorem randomAndDrawsOneByte : Obligations.RandomAndDrawsOneByte := by
  unfold Obligations.RandomAndDrawsOneByte
  refine ⟨encodes_rnd, fun x kk s => ?_⟩
  have hres : (s.setV x (drawnByte s &&& kk)).getV x = drawnByte s &&& kk := s.setV_getV_self x _
  refine ⟨_, rfl, fun j => ?_, fun hkk => ?_, rfl, rfl, keeps_written (i := .rnd x kk) rfl⟩
  · exact (congrArg (·.getLsbD j) hres).trans BitVec.getLsbD_and
  · subst hkk
    exact hres.trans BitVec.and_zero

/-! ### LD [I],Vx, then a load or a fetch -/

/-- A store that completes is within memory, and each register is read back where it was stored. -/
theorem exec_ldMemVx_stores {x : RegIdx} (h : exec (.ldMemVx x) s = .next t) : s.I.toNat + (x.val + 1) ≤ 0x1000 ∧
    ∀ k : RegIdx, k.val ≤ x.val → t.byteAt (s.I.toNat + k.val) = s.getV k := by
  obtain ⟨hin, -⟩ := (withRange_eq_next _ _ _ t).mp h
  obtain ⟨t', ht', hbyte, -⟩ := (storeRegistersWritesFromI.2 x s).1 (by omega)
  cases h.symm.trans ht'
  exact ⟨by omega, hbyte⟩

/-- Settles O35: register `k` is loaded from where it was stored, at `I + k`. -/
theorem storeThenLoadGivesRegistersBack : Obligations.StoreThenLoadGivesRegistersBack := by
  unfold Obligations.StoreThenLoadGivesRegistersBack
  intro x s t u h hI hmem
  obtain ⟨hin, hbyte⟩ := exec_ldMemVx_stores h
  rw [← hI] at hin hbyte
  refine ⟨_, exec_ldVxMem_inside u x hin, fun k hk => ?_, fun k hk => ?_⟩
  · refine ((u.loadRegs_getV x u.I.toNat k).trans (if_pos hk)).trans (.trans ?_ (hbyte k hk))
    rw [State.byteAt, State.byteAt, hmem]
  · exact (u.loadRegs_getV x u.I.toNat k).trans (if_neg (by omega))

/-- Settles O36: V0 and V1 are the two bytes fetched. -/
theorem storedInstructionRunsNext : Obligations.StoredInstructionRunsNext := by
  unfold Obligations.StoredInstructionRunsNext
  intro x s t i h hx hpc hd
  obtain ⟨hin, hbyte⟩ := exec_ldMemVx_stores h
  have h0 : t.byteAt s.I.toNat = s.getV 0 := hbyte 0 (Nat.zero_le _)
  have h1 : t.byteAt (s.I.toNat + 1) = s.getV 1 := hbyte 1 hx
  refine step_eq_exec_of_decodeWord_eq_some (by omega) ?_
  rw [wordAtPc, hpc, h0, h1]
  exact hd

end Sys2Proof.Machine
end

section
/-! Drawing a sprite twice (spec/43_display.md R152, R153; spec/95_test_vectors.md S6). -/

namespace Sys2Proof.Machine

variable {s t : State} {d : Display} {bytes : List Byte} {x y : Nat}

/-- Settles O39: by the sprite's rules for covered and other pixels and for its report. -/
theorem drawSpriteTogglesWhatItCovers : Obligations.DrawSpriteTogglesWhatItCovers := by
  unfold Obligations.DrawSpriteTogglesWhatItCovers
  intro d bytes x y hlen
  have hlen' : bytes.length ≤ 32 := by omega
  exact ⟨fun r c => pixel_drawSprite_of_covers hlen', fun r c => pixel_drawSprite_of_not_covers hlen',
    drawSprite_hit_iff_pixel_cleared hlen'⟩

theorem drawSprite_drawSprite (hlen : bytes.length ≤ 32) :
    (drawSprite (drawSprite d bytes x y).1 bytes x y).1 = d := by
  refine display_ext _ _ fun r c => ?_
  rw [pixel_drawSprite _ bytes x y hlen, pixel_drawSprite d bytes x y hlen, Bool.xor_assoc, Bool.xor_self,
    Bool.xor_false]

/-- A byte is not 0 exactly when one of its eight bits is 1, counted from the left. -/
theorem byte_ne_zero_iff (b : Byte) : b ≠ 0 ↔ ∃ col : Fin 8, b.getLsbD (7 - col.val) = true := by
  constructor
  · intro hb
    by_contra hdark
    refine hb (BitVec.eq_of_getLsbD_eq fun j hj => ?_)
    have hcol := not_exists.mp hdark ⟨7 - j, by omega⟩
    have hj' : 7 - (7 - j) = j := by omega
    simpa [hj'] using hcol
  · rintro ⟨col, hcol⟩ rfl
    simp at hcol

/-- A sprite covers some pixel exactly when one of its bytes is not 0: each of its bits falls on a pixel. -/
theorem exists_covers_iff : (∃ r c, Covers bytes x y r c) ↔ ∃ b ∈ bytes, b ≠ 0 := by
  constructor
  · rintro ⟨r, c, row, col, -, -, hbit⟩
    exact ⟨_, List.getElem_mem row.isLt, (byte_ne_zero_iff _).mpr ⟨col, hbit⟩⟩
  · rintro ⟨b, hb, hne⟩
    obtain ⟨row, hrow, rfl⟩ := List.getElem_of_mem hb
    obtain ⟨col, hcol⟩ := (byte_ne_zero_iff _).mp hne
    exact ⟨wrapRow (y + row), wrapCol (x + col.val), ⟨row, hrow⟩, col, rfl, rfl, hcol⟩

theorem drawSprite_hit_of_dark (hdark : ∀ r c, pixel d r c = false) (hlen : bytes.length ≤ 32) :
    (drawSprite d bytes x y).2 = false := by
  rw [Bool.eq_false_iff, Ne, drawSprite_hit d bytes x y hlen]
  rintro ⟨r, c, hlit, -⟩
  exact absurd hlit (by simp [hdark r c])

/-- On a dark display the first sprite lights what it covers, so the second clears it. -/
theorem drawSprite_drawSprite_hit_of_dark (hdark : ∀ r c, pixel d r c = false) (hlen : bytes.length ≤ 32) :
    (drawSprite (drawSprite d bytes x y).1 bytes x y).2 = true ↔ ∃ b ∈ bytes, b ≠ 0 := by
  rw [drawSprite_hit _ bytes x y hlen, ← exists_covers_iff (x := x) (y := y)]
  refine exists₂_congr fun r c => ?_
  rw [pixel_drawSprite d bytes x y hlen, hdark, Bool.false_xor, and_self, spriteBit_iff_covers bytes x y r c hlen]

/-! ### DRW -/

section Draw

variable {vx vy : RegIdx} {n : Count} {t' : State}

/-- What DRW makes of the display, and its report. -/
def drawn (vx vy : RegIdx) (n : Count) (s : State) : Display × Bool :=
  drawSprite s.disp (loadBytes s.mem s.I.toNat n.val) (s.getV vx).toNat (s.getV vy).toNat

theorem loadBytes_length_le (m : Memory) (a : Nat) (n : Count) : (loadBytes m a n.val).length ≤ 32 := by
  rw [loadBytes_length]
  omega

theorem exec_drw_draws (hin : n.val = 0 ∨ s.I.toNat + n.val ≤ 0x1000) : ∃ t, exec (.drw vx vy n) s = .next t ∧
    t.disp = (drawn vx vy n s).1 ∧ t.getV 15 = flagByte (drawn vx vy n s).2 ∧ t.mem = s.mem ∧
    KeepsAllBut (written (.drw vx vy n)) s t := by
  have hexec := exec_drw_inside s vx vy n hin
  exact ⟨_, hexec, rfl, (s.setDisp _).setV_getV_self vf _, rfl, keeps_written hexec⟩

/-- The state of the second draw, the one left by the first or that with VF put back, has the same coordinates. -/
theorem coordinates_of_redraw (ht : KeepsAllBut (written (.drw vx vy n)) s t)
    (ht' : (vx ≠ 15 ∧ vy ≠ 15 ∧ t' = t) ∨ t' = t.setV 15 (s.getV 15)) :
    t'.getV vx = s.getV vx ∧ t'.getV vy = s.getV vy := by
  have hkept : ∀ k : RegIdx, k ≠ 15 → t.getV k = s.getV k := fun k hk => ht (.reg k) (by simp [written, hk])
  obtain ⟨hx, hy, rfl⟩ | rfl := ht'
  · exact ⟨hkept vx hx, hkept vy hy⟩
  · have hback : ∀ k, (t.setV 15 (s.getV 15)).getV k = s.getV k := by
      intro k
      rw [State.setV_getV]
      split
      · next h => rw [h]
      · next h => exact hkept k (Ne.symm h)
    exact ⟨hback vx, hback vy⟩

/-- That state differs from the one the first draw left in VF at most. -/
theorem rest_of_redraw (ht' : (vx ≠ 15 ∧ vy ≠ 15 ∧ t' = t) ∨ t' = t.setV 15 (s.getV 15)) :
    t'.disp = t.disp ∧ t'.mem = t.mem ∧ KeepsAllBut (onlyReg 15) t t' := by
  obtain ⟨-, -, rfl⟩ | rfl := ht'
  · exact ⟨rfl, rfl, .refl _ _⟩
  · exact ⟨rfl, rfl, keeps_setV t 15 _ rfl⟩

theorem flagByte_eq_one_iff (c : Bool) : flagByte c = 1 ↔ c = true := by
  cases c <;> decide

/-- Settles O41: the second sprite is the first one again, on the display the first one left. -/
theorem drawingTwiceRestoresTheDisplay : Obligations.DrawingTwiceRestoresTheDisplay := by
  unfold Obligations.DrawingTwiceRestoresTheDisplay
  intro x y n s hin
  have hlen := loadBytes_length_le s.mem s.I.toNat n
  obtain ⟨t, ht, hdisp, hflag, hmem, hkeep⟩ := exec_drw_draws (vx := x) (vy := y) hin
  refine ⟨t, ht, fun t' ht' => ?_⟩
  obtain ⟨hx, hy⟩ := coordinates_of_redraw hkeep ht'
  obtain ⟨hdisp', hmem', hkeep'⟩ := rest_of_redraw ht'
  have hVF : ∀ p, onlyReg 15 p → written (.drw x y n) p := fun p hp => .inl hp
  have hI : t'.I = s.I := (hkeep.trans (hkeep'.mono hVF)) .addressRegister (by simp [written])
  obtain ⟨u, hu, hdisp'', hflag', -, hkeep''⟩ := exec_drw_draws (s := t') (vx := x) (vy := y) (n := n) (by rwa [hI])
  have hagain : drawn x y n t' = drawSprite (drawn x y n s).1 (loadBytes s.mem s.I.toNat n.val) (s.getV x).toNat
      (s.getV y).toNat := by
    rw [drawn, hx, hy, hI, hmem', hmem, hdisp', hdisp]
  have hrestored : u.disp = s.disp := by
    rw [hdisp'', hagain]
    exact drawSprite_drawSprite hlen
  refine ⟨u, hu, hrestored, ?_, fun hdark => ⟨?_, ?_⟩⟩
  · refine ((hkeep.trans (hkeep'.mono hVF)).trans hkeep'').of_same fun p hp hother => ?_
    obtain hp | ⟨r, c, rfl⟩ := hp
    · exact absurd hp hother
    · exact congrArg (pixel · r c) hrestored
  · rw [hflag]
    exact congrArg flagByte (drawSprite_hit_of_dark hdark hlen)
  · rw [hflag', hagain, flagByte_eq_one_iff]
    refine (drawSprite_drawSprite_hit_of_dark hdark hlen).trans ?_
    simp [loadBytes, State.byteAt]

end Draw

end Sys2Proof.Machine
end

section
/-! The host's operations in sequence (spec/60_exceptions.md R196, R198; spec/44_keys_timers.md R169), loads and resets
(spec/70_reset_and_hazards.md R211, R212, R216). -/

namespace Sys2Proof.Machine

variable {s t : State}

/-! ### Waiting for a key -/

theorem run_of_step_self {M : Host.Core} {s : M.State} (h : M.step s = .next s) (n : Nat) : M.run n s = .next s := by
  induction n with
  | zero => rfl
  | succ n ih =>
    rw [Host.Core.run, h]
    exact ih

theorem perform_step_of_next (h : step s = .next t) : perform .step s = some (t, .stepped none) := by
  simp only [perform, h]

theorem keyDown_keys_ne_zero (k : KeyIdx) (s : State) : (keyDown k s).keys ≠ 0 := by
  intro hkeys
  have hdown := isKeyDown_keyDown s k k
  rw [isKeyDown, hkeys] at hdown
  simp at hdown

/-- Settles O44: a waiting step leaves its state, so it can be repeated; a key press leaves `pc` and memory, so the
step after it is the same instruction with a key down. -/
theorem waitingLastsUntilAKeyIsPressed : Obligations.WaitingLastsUntilAKeyIsPressed := by
  unfold Obligations.WaitingLastsUntilAKeyIsPressed
  intro x k n s hkeys hpc hd
  have hwait : step s = .next s :=
    (step_eq_exec_of_decodeWord_eq_some hpc hd).trans (exec_ldVxK_none s x hkeys)
  have hpressed : step (keyDown k s) = exec (.ldVxK x) (keyDown k s) :=
    step_eq_exec_of_decodeWord_eq_some (s := keyDown k s) hpc hd
  obtain ⟨t, ht, hres, hnext, -⟩ := exec_writes_register (exec_ldVxK_some _ x (keyDown_keys_ne_zero k s))
  refine ⟨run_of_step_self (M := Sys2Proof.core) hwait n, t, ?_, hres ▸ keyByte_toNat k, hnext⟩
  rw [session_replicate_append (perform_step_of_next hwait)]
  change session [.step] (keyDown k s) = some t
  rw [session, perform_step_of_next (hpressed.trans ht)]
  rfl

/-! ### Ticks -/

theorem countDown_toNat (v : Byte) : (countDown v).toNat = v.toNat - 1 := by
  have hv := v.isLt
  unfold countDown
  split
  · next h =>
    subst h
    rfl
  · next h =>
    have hpos : v.toNat ≠ 0 := fun h0 => h (BitVec.eq_of_toNat_eq h0)
    have h1 : (1 : Byte).toNat = 1 := rfl
    rw [BitVec.toNat_sub, h1]
    omega

/-- R196's frame. -/
theorem keeps_tick (s : State) : KeepsAllBut (fun p => p = .delayTimer ∨ p = .soundTimer) s (tick s) :=
  (keeps_setDT s _ (.inl rfl)).trans (keeps_setST _ _ (.inr rfl))

/-- Settles O47: by induction on the number of ticks, each of which takes one off both timers. -/
theorem ticksCountBothTimersDown : Obligations.TicksCountBothTimersDown := by
  unfold Obligations.TicksCountBothTimersDown
  intro n
  induction n with
  | zero => exact fun s => ⟨s, rfl, rfl, rfl, rfl, .refl _ s⟩
  | succ n ih =>
    intro s
    obtain ⟨t, ht, hDT, hST, hpc, hkeep⟩ := ih (tick s)
    have hDT' : (tick s).DT.toNat = s.DT.toNat - 1 := countDown_toNat s.DT
    have hST' : (tick s).ST.toNat = s.ST.toNat - 1 := countDown_toNat s.ST
    exact ⟨t, ht, by omega, by omega, hpc, (keeps_tick s).trans hkeep⟩

/-! ### Load and reset -/

/-- Settles O49: a load stores the image's bytes at 0x200 and up, unless the image is too long. -/
theorem loadWritesOnlyTheImage : Obligations.LoadWritesOnlyTheImage := by
  unfold Obligations.LoadWritesOnlyTheImage
  refine fun bytes s => ⟨fun hlen => ?_, fun hlong => ?_⟩
  · have hload : load bytes s = some (s.setMem (storeBytes s.mem 0x200 bytes)) := load_eq_some.mpr ⟨hlen, rfl⟩
    refine ⟨_, by rw [perform, hload]; rfl, load_byteAt hload, rfl, ?_⟩
    exact keeps_storeBytes s 0x200 bytes fun k hk => ⟨k, hk, rfl⟩
  · rw [perform, load, if_neg (by omega)]
    rfl

/-- R212: the font's 80 bytes are the last that differ from 0. -/
theorem resetByte_above_font {a : Nat} (h : 80 ≤ a) : resetByte a = 0 := by
  have hbase : fontBase ≤ a := Nat.zero_le a
  rw [resetByte, if_pos hbase]
  exact List.getD_eq_default _ _ h

/-- Settles O52: whatever the state before, a reset gives zeros and a memory that lists nothing, so that it reads as
the font and zeros. -/
theorem resetValuesTheSpecDecides : Obligations.ResetValuesTheSpecDecides := by
  unfold Obligations.ResetValuesTheSpecDecides
  intro s
  have hmem : (hostReset s).mem = [] := rfl
  refine ⟨hostReset s, rfl, fun k => Vector.getElem_replicate _, rfl, fun k => Vector.getElem_replicate _, rfl, ?_⟩
  rw [hmem]
  refine ⟨by decide, by decide, by decide, by decide, fun a => resetByte_above_font⟩

end Sys2Proof.Machine
end

section
/-! Canonical memories (spec/10_state.md R24): a canonical list has exactly the cells that differ from the reset
contents, in rising order, so its reads determine it. -/

namespace Sys2Proof.Machine

variable {m m' : Memory} {a : Nat} {v : Byte}

theorem memRead_of_mem (hsorted : m.Pairwise fun c d => c.1 < d.1) (h : (a, v) ∈ m) : memRead m a = v := by
  induction m with
  | nil => cases h
  | cons c m ih =>
    obtain ⟨b, w⟩ := c
    obtain ⟨hfirst, hrest⟩ := List.pairwise_cons.mp hsorted
    obtain heq | htail := List.mem_cons.mp h
    · cases heq
      exact if_pos rfl
    · have hlt : b < a := hfirst _ htail
      exact (if_neg hlt.ne).trans (ih hrest htail)

theorem mem_of_memRead_ne (h : memRead m a ≠ resetByte a) : (a, memRead m a) ∈ m := by
  induction m with
  | nil => exact absurd rfl h
  | cons c m ih =>
    obtain ⟨b, w⟩ := c
    rw [memRead] at h ⊢
    split_ifs at h ⊢ with hb
    · subst hb
      exact List.mem_cons_self
    · exact List.mem_cons_of_mem _ (ih h)

theorem mem_iff_memRead (hwf : Memory.wf m) :
    (a, v) ∈ m ↔ a < 0x1000 ∧ memRead m a = v ∧ v ≠ resetByte a := by
  constructor
  · intro h
    obtain ⟨hlt, hne⟩ := hwf.2 _ h
    exact ⟨hlt, memRead_of_mem hwf.1 h, hne⟩
  · rintro ⟨-, rfl, hne⟩
    exact mem_of_memRead_ne hne

/-- Settles O58: the two lists have the same cells, each in the order of the addresses. -/
theorem canonicalMemoriesThatReadAlikeAreEqual : Obligations.CanonicalMemoriesThatReadAlikeAreEqual := by
  unfold Obligations.CanonicalMemoriesThatReadAlikeAreEqual
  intro m m' hwf hwf' halike
  have hcells : ∀ c, c ∈ m ↔ c ∈ m' := by
    rintro ⟨a, v⟩
    rw [mem_iff_memRead hwf, mem_iff_memRead hwf']
    exact and_congr_right fun hlt => by rw [halike a hlt]
  have hirrefl : Std.Irrefl fun c d : Host.Cell => c.1 < d.1 := ⟨fun _ => Nat.lt_irrefl _⟩
  have hantisymm : Std.Antisymm fun c d : Host.Cell => c.1 < d.1 := ⟨fun _ _ h h' => absurd h (Nat.lt_asymm h')⟩
  exact hwf.1.eq_of_mem_iff hwf'.1 hcells

end Sys2Proof.Machine
end
